-- ==== Sys2Proof/Word.lean ====
section
/-! DEFINITION. The widths of the machine (spec/00_scope.md R10): a byte and a 16-bit address. -/

namespace Sys2Proof

/-- An 8-bit quantity: a memory byte, `sp`, `x`, `y`, `acc`, `sr`, an opcode (R10). -/
abbrev Byte := BitVec 8

/-- A 16-bit quantity: an address or `pc` (R10). -/
abbrev Word := BitVec 16

/-- The result of an operation that may `raise` an error instead of giving a value (R18): the error
is data, and what is kept of the state is said where the error is met. -/
inductive Attempt (ε α : Type) where
  | done (v : α)
  | raised (e : ε)
deriving DecidableEq, Repr

end Sys2Proof
end

