-- ==== Sys2Proof/Machine/Bytes.lean ====
section
/-! DEFINITION. Byte order and zero extension (spec/00_scope.md R14, spec/20_memory.md R57). -/

namespace Sys2Proof

/-- `zext_16(v)` of R14. -/
def zext16 (b : Byte) : Word := b.setWidth 16

/-- `{hi, lo} = hi * 256 + lo` (R14, R53, R85). -/
def wordOfBytes (hi lo : Byte) : Word := hi ++ lo

/-- `w[15:8]`. -/
def hiByte (w : Word) : Byte := w.extractLsb' 8 8

/-- `w[7:0]`. -/
def loByte (w : Word) : Byte := w.extractLsb' 0 8

end Sys2Proof
end

