-- ==== Sys2Proof/Config.lean ====
section
/-! DEFINITION. The implementation parameters of spec/00_scope.md section 3 (R4 to R9) and the shape of
`MEMMAP` (spec/20_memory.md R51). None of them changes during a run. DESIGN CHOICE, safe: a value of
`Config` is carried in `State.cfg`, so that a claim over all states is a claim over all
configurations (notes/assumptions/3.md). -/

namespace Sys2Proof

/-- R4: the spec states no difference between the two kinds. -/
inductive CpuKind where
  | mcs6500
  | mos65xx
deriving DecidableEq, Repr

/-- R5: what BREAK does. -/
inductive OnBreak where
  | haltForDebug
  | shutdownWithDump
deriving DecidableEq, Repr

/-- R6: how ZeroPageX and ZeroPageY add the index register. -/
inductive ZpIndexPolicy where
  | rawAdd
  | strictWrap
deriving DecidableEq, Repr

/-- R8: the two admitted values of `STACK_BASE`; any other is unrepresentable (U19: refused). -/
inductive StackBase where
  | zeroPage
  | pageOne
deriving DecidableEq, Repr

/-- The 16-bit constant a `StackBase` stands for (R8). -/
def StackBase.value : StackBase → Word
  | .zeroPage => 0x0000
  | .pageOne => 0x0100

/-- R51: what a write to a ROM region does. -/
inductive OnWrite where
  | ignore
  | reject
deriving DecidableEq, Repr

/-- R51: what `MEMMAP` assigns to one address. `cell` names the storage byte; two addresses with the
same cell are mirror copies of each other. -/
inductive MapEntry where
  | ram (cell : Word)
  | rom (cell : Word) (onWrite : OnWrite)
  | unmapped
deriving DecidableEq, Repr

/-- The kind of one region of the map. -/
inductive RegionKind where
  | ram
  | rom (onWrite : OnWrite)
  | unmapped
deriving DecidableEq, Repr

/-- One region: the addresses `first..last`, backed by the cells from `cell` on, the same `period`
cells repeating over and over (a mirror); a period of 0 means no repetition. -/
structure Region where
  first : Word
  last : Word
  kind : RegionKind
  cell : Word
  period : Nat
deriving DecidableEq, Repr

/-- `MEMMAP` as plain data: the first region that covers an address decides, an address no region
covers is `Unmapped`. DESIGN CHOICE, safe: every function from addresses to `MapEntry` is the
function of some list (`Laws/Memory.lean`, `MemMap.exists_entry_eq`; notes/assumptions/5.md). -/
abbrev MemMap := List Region

/-- What R62 leaves as parameters of the one platform it describes, the "RAM and its mirrors" below
0x6000: `size` bytes from `first` on, seen again every `stride` addresses, `copies` times in all
(notes/assumptions/18.md). The platform's map is `MemMap.mapper0` in Machine/Platform.lean. -/
structure LowRam where
  first : Nat
  size : Nat
  stride : Nat
  copies : Nat
deriving DecidableEq, Repr

/-- R9: the last address an instruction byte may be fetched from. -/
def lastFetchAddr : Word := 0xFFF9

/-- The parameters of spec/00_scope.md section 3. -/
structure Config where
  cpuKind : CpuKind
  onBreak : OnBreak
  zpIndexPolicy : ZpIndexPolicy
  maxInsns : Nat
  stackBase : StackBase
  memMap : MemMap
deriving DecidableEq, Repr

/-- The whole address space as RAM, each address its own cell: the convention of
spec/95_test_vectors.md ("every address is `Ram`"). -/
def MemMap.allRam : MemMap := [⟨0x0000, 0xFFFF, .ram, 0x0000, 0⟩]

/-- The configuration of `State.reset`. `RawAdd` (R6) and `STACK_BASE = 0x0000` (R8) are the spec's
defaults. DESIGN CHOICE, unsafe: the spec gives no default for `ON_BREAK`, `MAX_INSNS` and `MEMMAP`,
and either kind for `CPU_KIND` (notes/assumptions/4.md). -/
def Config.atReset : Config where
  cpuKind := .mcs6500
  onBreak := .haltForDebug
  zpIndexPolicy := .rawAdd
  maxInsns := 1
  stackBase := .zeroPage
  memMap := MemMap.allRam

end Sys2Proof
end

