-- ==== Sys2Proof/Machine/State.lean ====
section
/-! DEFINITION. The state of spec/10_state.md as plain data, the reasons a step stops, and the state at
instantiation (R41). -/

namespace Sys2Proof.Machine

/-- The storage bytes of the address space (spec/20_memory.md R50, R51), as (cell, byte) pairs in
canonical form: cells strictly rising, no byte equal to what an unlisted cell reads as
(`Memory.wf` in Ops.lean). -/
abbrev Memory := List Host.Cell

/-- The three interrupt kinds (spec/60_exceptions.md R221). -/
inductive IrqKind where
  | reset
  | nmi
  | irq
deriving DecidableEq, Repr

/-- `pending`, three independent bits (R33). -/
structure Pending where
  reset : Bool
  nmi : Bool
  irq : Bool
deriving DecidableEq, Repr

/-- Why the core halted (R13, R38). -/
inductive HaltReason where
  /-- BREAK under `ON_BREAK = HaltForDebug` (R181). -/
  | debugHalt
  /-- BREAK under `ON_BREAK = ShutdownWithDump` (R182). -/
  | shutdown
deriving DecidableEq, Repr

/-- The synchronous errors a block step can end in, with their `info` (R13, R38,
spec/60_exceptions.md R220). -/
inductive FaultCause where
  | illegalInstruction (addr : Word) (byte : Byte)
  | fetchOutOfRange (addr : Word)
  | memoryTransactionError (addr : Word)
deriving DecidableEq, Repr

/-- How the last block step ended (R38). Every value but `running` is absorbing. -/
inductive Status where
  | running
  | halted (reason : HaltReason)
  | fault (cause : FaultCause)
deriving DecidableEq, Repr

/-- The content of the shutdown report: the six registers (spec/44_break.md R182). -/
structure Report where
  pc : Word
  sp : Byte
  sr : Byte
  x : Byte
  y : Byte
  acc : Byte
deriving DecidableEq, Repr

/-- An output to the host that is neither state nor an outcome of a block step. -/
inductive HostOutput where
  /-- The shutdown report of BREAK (R182). -/
  | report (r : Report)
  /-- The diagnostic of an aborted delivery, naming the kind and the failing address (R240). -/
  | deliveryAborted (kind : IrqKind) (addr : Word)
deriving DecidableEq, Repr

/-- The machine. `pc` to `sr` are the register file (R20), `pending` R33, `status` R38, `mem` R39.
`cfg` is the fixed configuration (spec/00_scope.md section 3), which no step changes
(notes/assumptions/3.md). `outputs` is the model's own field (notes/assumptions/9.md): what has been
reported to the host, oldest first; no rule reads it. -/
structure State where
  pc : Word
  sp : Byte
  x : Byte
  y : Byte
  acc : Byte
  sr : Byte
  pending : Pending
  status : Status
  mem : Memory
  cfg : Config
  outputs : List HostOutput
deriving DecidableEq, Repr

/-- A block step or an instruction that ends in a fault (R13: a fault outcome, not a value). `after` is
the state the rules say is left, with `status = Fault(..)` (DESIGN CHOICE, safe:
notes/assumptions/6.md). -/
inductive Fault where
  /-- Raised by the block build at an opcode byte of no row (spec/30_encoding.md R92, R98,
  spec/45_block_execution.md R199). Safe: the spec's own fault. -/
  | illegalInstruction (addr : Word) (byte : Byte) (after : State)
  /-- Raised by the block build when an instruction byte lies above `LAST_FETCH_ADDR` (R193, R194,
  R199). Safe: the spec's own fault. -/
  | fetchOutOfRange (addr : Word) (after : State)
  /-- Raised by a fetch read during the build (R198) or by the pointer or data access of a load or store
  (spec/41_loads.md R121, spec/42_stores.md R151, R203). Safe: the spec's own fault. -/
  | memoryTransactionError (addr : Word) (after : State)
deriving DecidableEq, Repr

/-- Why there is no step, or no access through the debug port. -/
inductive Refusal where
  /-- The instruction has no meaning in `exec` yet. Safe. No arm of `exec` answers it. -/
  | notModelled (mnemonic : String)
  /-- Raised by `step` in a `Halted` status, in which the core has no step (R38,
  spec/60_exceptions.md R233). Safe. -/
  | halted (reason : HaltReason)
  /-- Raised by `step` when `MAX_INSNS = 0`, which is refused at configuration (R7, D37, U3). Safe. -/
  | zeroBlockCap
  /-- Raised by the debug port for an index outside 0..5 (R40, U20). Safe. -/
  | debugIndex (index : Nat)
  /-- Raised by the debug port when a value above 0xFF is written to an 8-bit register, which the spec
  does not describe (DESIGN CHOICE, safe: notes/assumptions/13.md). -/
  | debugValueTooWide (index : Nat) (value : Word)
deriving DecidableEq, Repr

/-- The fault that ends a step with cause `c`, leaving `after`. -/
def FaultCause.stop : FaultCause → State → Fault
  | .illegalInstruction a op, after => .illegalInstruction a op after
  | .fetchOutOfRange a, after => .fetchOutOfRange a after
  | .memoryTransactionError a, after => .memoryTransactionError a after

/-- The machine at instantiation (R41): `pending = {Reset}`, `status = Running`. DESIGN CHOICE, unsafe: the
spec leaves the six registers unspecified; here each is 0 (notes/assumptions/1.md). Memory lists
nothing (notes/assumptions/2.md); the configuration is `Config.atReset` (notes/assumptions/4.md). -/
def State.reset : State where
  pc := 0x0000
  sp := 0x00
  x := 0x00
  y := 0x00
  acc := 0x00
  sr := 0x00
  pending := ⟨true, false, false⟩
  status := .running
  mem := []
  cfg := Config.atReset
  outputs := []

end Sys2Proof.Machine
end

