-- ==== Sys2Proof/Machine/Flags.lean ====
section
/-! DEFINITION. The bits of `sr` (spec/10_state.md R28). The hardware computes no flag: no rule of the core
writes `sr` (R29, R31); the one reader is the interrupt controller, of bit 2 (R30). -/

namespace Sys2Proof.Machine

/-- The eight named bits (R28). -/
inductive Flag where
  | carry | zero | interruptDisable | decimal | brk | unused | overflow | negative
deriving DecidableEq, Repr

/-- The fixed layout of `sr` (R28). -/
def Flag.bit : Flag → Nat
  | .carry => 0
  | .zero => 1
  | .interruptDisable => 2
  | .decimal => 3
  | .brk => 4
  | .unused => 5
  | .overflow => 6
  | .negative => 7

/-- The value of one flag. -/
def State.flag (s : State) (f : Flag) : Bool := s.sr.getLsbD f.bit

end Sys2Proof.Machine
end

