-- ==== Sys2Proof/Machine/Ops.lean ====
section
/-! DEFINITION. The named operations over memory (spec/20_memory.md), registers (spec/10_state.md) and the
interrupt controller (spec/60_exceptions.md). Taking an exception is `deliver`; there is no return
from one (R242). -/

namespace Sys2Proof

/-- A region covers the addresses `first..last`. -/
def Region.covers (r : Region) (a : Word) : Bool := decide (r.first ≤ a) && decide (a ≤ r.last)

/-- The cell behind an address of a region; with a period the cells repeat (a period of 0 does not). -/
def Region.cellOf (r : Region) (a : Word) : Word :=
  r.cell + BitVec.ofNat 16 ((a.toNat - r.first.toNat) % r.period)

/-- What a region assigns to an address it covers (R51). -/
def Region.entry (r : Region) (a : Word) : MapEntry :=
  match r.kind with
  | .ram => .ram (r.cellOf a)
  | .rom w => .rom (r.cellOf a) w
  | .unmapped => .unmapped

/-- `MEMMAP(a)` (R51): the first region that covers `a` decides. -/
def MemMap.entry : MemMap → Word → MapEntry
  | [], _ => .unmapped
  | r :: rs, a => if r.covers a then r.entry a else MemMap.entry rs a

/-- The cell behind an address that can be read (R52). -/
def MapEntry.readCell? : MapEntry → Option Word
  | .ram c => some c
  | .rom c _ => some c
  | .unmapped => none

namespace Machine

/-- What a cell the memory does not list reads as. DESIGN CHOICE, unsafe: the spec gives RAM no contents
before the host populates it; 0x00 is the convention of spec/95_test_vectors.md
(notes/assumptions/2.md). -/
def unlistedByte : Byte := 0x00

/-- The byte a cell stores. -/
def Memory.readCell : Memory → Nat → Byte
  | [], _ => unlistedByte
  | (k, v) :: m, j => if k = j then v else Memory.readCell m j

/-- Put a byte into a cell, keeping the canonical form. -/
def Memory.writeCell : Memory → Nat → Byte → Memory
  | [], j, v => if v = unlistedByte then [] else [(j, v)]
  | (k, w) :: m, j, v =>
    if j < k then (if v = unlistedByte then (k, w) :: m else (j, v) :: (k, w) :: m)
    else if j = k then (if v = unlistedByte then m else (j, v) :: m)
    else (k, w) :: Memory.writeCell m j v

/-- The canonical form: cells below 65536, strictly rising, no byte equal to `unlistedByte`. -/
def Memory.wf : Memory → Bool
  | [] => true
  | (k, v) :: m => decide (k < 65536) && decide (v ≠ unlistedByte) &&
      m.all (fun e => decide (k < e.1)) && Memory.wf m

/-- `MEMMAP(a)` of this machine. -/
def State.entry (s : State) (a : Word) : MapEntry := MemMap.entry s.cfg.memMap a

/-- `MemRead(a, 1)` (R52). It changes nothing; the error is the failing address. -/
def State.memRead1 (s : State) (a : Word) : Attempt Word Byte :=
  match (s.entry a).readCell? with
  | some c => .done (s.mem.readCell c.toNat)
  | none => .raised a

/-- `MemRead(a, 2)` (R53): two byte reads, low byte first, the second at the next address of the full
16-bit space (no wrap within a page). -/
def State.memRead2 (s : State) (a : Word) : Attempt Word Word :=
  match s.memRead1 a with
  | .raised e => .raised e
  | .done lo =>
    match s.memRead1 (a + 1) with
    | .raised e => .raised e
    | .done hi => .done (wordOfBytes hi lo)

/-- `MemWrite(a, 1, v)` (R54). -/
def State.memWrite1 (s : State) (a : Word) (v : Byte) : Attempt Word State :=
  match s.entry a with
  | .ram c => .done { s with mem := s.mem.writeCell c.toNat v }
  | .rom _ .ignore => .done s
  | .rom _ .reject => .raised a
  | .unmapped => .raised a

/-- The registers an instruction loads, stores or transfers (R25, R26, R27). -/
inductive Reg where
  | x
  | y
  | acc
deriving DecidableEq, Repr

/-- Read a register. -/
def State.reg (s : State) : Reg → Byte
  | .x => s.x
  | .y => s.y
  | .acc => s.acc

/-- Write a register; every bit is storage (R20). -/
def State.setReg (s : State) (r : Reg) (v : Byte) : State :=
  match r with
  | .x => { s with x := v }
  | .y => { s with y := v }
  | .acc => { s with acc := v }

/-- `pc <- pc + n` at the end of a completed instruction (R22). -/
def State.advance (s : State) (n : Nat) : State := { s with pc := s.pc + BitVec.ofNat 16 n }

/-- `status <- v` (R38). -/
def State.setStatus (s : State) (v : Status) : State := { s with status := v }

/-- Hand one output to the host. -/
def State.emit (s : State) (o : HostOutput) : State := { s with outputs := s.outputs ++ [o] }

/-- The six register values of this moment (R182). -/
def State.report (s : State) : Report := ⟨s.pc, s.sp, s.sr, s.x, s.y, s.acc⟩

/-- End the step with `status <- Fault(c)`, everything else as it is (R199, R203). -/
def State.raise (s : State) (c : FaultCause) : Host.Outcome State Fault Refusal :=
  .fault (c.stop (s.setStatus (.fault c)))

/-- Read one pending bit. -/
def Pending.get (p : Pending) : IrqKind → Bool
  | .reset => p.reset
  | .nmi => p.nmi
  | .irq => p.irq

/-- Write one pending bit and no other (R226). -/
def Pending.set (p : Pending) (k : IrqKind) (b : Bool) : Pending :=
  match k with
  | .reset => { p with reset := b }
  | .nmi => { p with nmi := b }
  | .irq => { p with irq := b }

/-- `Signal(k)` (R225, R227): sets the bit, reads nothing, changes nothing else, in any status. -/
def State.signal (s : State) (k : IrqKind) : State := { s with pending := s.pending.set k true }

/-- The `reset` capability is `Signal(Reset)` (spec/70_reset_and_hazards.md R272). -/
def State.assertReset (s : State) : State := s.signal .reset

/-- The vector addresses (R235). -/
def vector : IrqKind → Word
  | .nmi => 0xFFFA
  | .reset => 0xFFFC
  | .irq => 0xFFFE

/-- The address a push with stack pointer `sp` goes to (R8, R237). -/
def State.pushAddr (s : State) (sp : Byte) : Word := s.cfg.stackBase.value + zext16 sp

/-- What an aborted delivery leaves (R240): all registers and `pending` as before, the pushes that
completed (already in `s`), and a diagnostic. `status` stays as it is. -/
def State.abortDelivery (s : State) (k : IrqKind) (a : Word) : State := s.emit (.deliveryAborted k a)

/-- `Deliver(k)` (R236, R237, R240): push `pc[15:8]` at `sp`, push `pc[7:0]` at `sp - 1`, load `pc` from
the vector, lower `sp` by 2, clear the pending bit. `sr`, `x`, `y`, `acc` and the other pending bits
are not touched (R238). If an access fails, registers and `pending` keep their values.
DESIGN CHOICE, unsafe: of the two treatments U7 admits, R240's (notes/assumptions/10.md). -/
def State.deliver (s : State) (k : IrqKind) : State :=
  match s.memWrite1 (s.pushAddr s.sp) (hiByte s.pc) with
  | .raised a => s.abortDelivery k a
  | .done s1 =>
    match s1.memWrite1 (s.pushAddr (s.sp - 1)) (loByte s.pc) with
    | .raised a => s1.abortDelivery k a
    | .done s2 =>
      match s2.memRead2 (vector k) with
      | .raised a => s2.abortDelivery k a
      | .done target =>
        { s2 with pc := target, sp := s.sp - 2, pending := s.pending.set k false }

/-- Which interrupt the boundary check delivers (R228 to R231): Reset, then Nmi, then Irq if `sr.I` is
clear. -/
def State.dueInterrupt (s : State) : Option IrqKind :=
  if s.pending.reset then some .reset
  else if s.pending.nmi then some .nmi
  else if s.pending.irq && !s.flag .interruptDisable then some .irq
  else none

/-- `BoundaryCheck` (R231): at most one delivery. -/
def State.boundaryCheck (s : State) : State :=
  match s.dueInterrupt with
  | some k => s.deliver k
  | none => s

end Machine

end Sys2Proof
end

