-- ==== Sys2Proof/Machine/DebugPort.lean ====
section
/-! DEFINITION. The host's access to the machine between block steps: the debug register port
(spec/10_state.md R40) and populating memory (spec/20_memory.md R66, spec/70_reset_and_hazards.md R276). -/

namespace Sys2Proof.Machine

/-- Read `dbg[i]`: pc, sp, sr, x, y, acc (R40, D24). None for any other index. -/
def State.dbgRead (s : State) : Nat → Option Word
  | 0 => some s.pc
  | 1 => some (zext16 s.sp)
  | 2 => some (zext16 s.sr)
  | 3 => some (zext16 s.x)
  | 4 => some (zext16 s.y)
  | 5 => some (zext16 s.acc)
  | _ => none

/-- The state after a byte `v` is written to the 8-bit register `dbg[i]`, none if there is none. -/
def State.dbgWriteByte (s : State) (i : Nat) (v : Byte) : Option State :=
  match i with
  | 1 => some { s with sp := v }
  | 2 => some { s with sr := v }
  | 3 => some { s with x := v }
  | 4 => some { s with y := v }
  | 5 => some { s with acc := v }
  | _ => none

/-- Write `dbg[i]` (R40): the value is stored as given, in any status. An index outside 0..5 is refused;
so is a value wider than the register (DESIGN CHOICE, safe: notes/assumptions/13.md). -/
def State.dbgWrite (s : State) (i : Nat) (v : Word) : Host.Outcome State Fault Refusal :=
  if i = 0 then .next { s with pc := v }
  else
    match s.dbgWriteByte i (loByte v) with
    | none => .refused (.debugIndex i)
    | some s' => if hiByte v = 0 then .next s' else .refused (.debugValueTooWide i v)

/-- The host puts a byte into the cell behind an address, RAM or ROM alike; behind an unmapped address
there is no cell and nothing changes (notes/assumptions/12.md). -/
def State.hostLoad (s : State) (a : Word) (v : Byte) : State :=
  match (s.entry a).readCell? with
  | some c => { s with mem := s.mem.writeCell c.toNat v }
  | none => s

/-- `hostLoad` of consecutive bytes from `a` on. -/
def State.hostLoadList (s : State) (a : Word) : List Byte → State
  | [] => s
  | b :: bs => (s.hostLoad a b).hostLoadList (a + 1) bs

/-- Where `withFetchWord` puts a program that an interrupt delivery is about to enter. -/
def loadOrigin : Word := 0x8000

/-- Load bytes where the next block step fetches: at the target of the delivery that is due, whose vector
is set to `loadOrigin`, or at `pc` when none is due (notes/assumptions/14.md). -/
def State.hostLoadNext (s : State) (bytes : List Byte) : State :=
  match s.dueInterrupt with
  | some k =>
    (s.hostLoadList (vector k) [loByte loadOrigin, hiByte loadOrigin]).hostLoadList loadOrigin bytes
  | none => s.hostLoadList s.pc bytes

end Sys2Proof.Machine
end

