-- ==== Sys2Proof/Machine/Break.lean ====
section
/-! DEFINITION. BREAK (spec/44_break.md). It halts the core; it is no software interrupt (R184). -/

namespace Sys2Proof.Machine

/-- BREAK, opcode 0x00 (R180, R181, R182). `pc` is not advanced (the spec's decision, unsafe for the
original program: U9, notes/assumptions/8.md) and no register, flag, memory byte or pending bit is
written. Under `ShutdownWithDump` the six registers are reported to the host (the report is an output;
DESIGN CHOICE, safe: it is appended to `State.outputs`, notes/assumptions/9.md). -/
def execBrk (s : State) : Host.Outcome State Fault Refusal :=
  match s.cfg.onBreak with
  | .haltForDebug => .next (s.setStatus (.halted .debugHalt))
  | .shutdownWithDump => .next ((s.emit (.report s.report)).setStatus (.halted .shutdown))

end Sys2Proof.Machine
end

