-- ==== Sys2Proof/Syntax.lean ====
section
/-! DEFINITION. The instructions (one constructor per row of spec/opcode_table.json, spec/30_encoding.md
R89), their mnemonics and addressing modes (spec/10_state.md R36), the instruction descriptor (R36)
and the translation block (R37).

DESIGN CHOICE, safe: a one-byte operand is a `Byte` and a two-byte operand a `Word` ("operand: u16
(raw, mode-dependent width)", R36), so a term of `Instr` has no illegal operand (R93) and the 16-bit
`operand` is a function of it (`Instr.operand` in Decode.lean; notes/assumptions/15.md). -/

namespace Sys2Proof

/-- The closed mnemonic set of R36. -/
inductive Mnemonic where
  | LDA | LDX | LDY | STA | STX | STY | TAX | TAY | TXA | TYA | BREAK
deriving DecidableEq, Repr

/-- The nine modes of the source and the spec's tenth, `implied` (R36, R82). -/
inductive AddressingMode where
  | immediate | zeroPage | zeroPageX | zeroPageY | absolute | absoluteX | absoluteY
  | indirectX | indirectY | implied
deriving DecidableEq, Repr

/-- One constructor per row of the opcode map (R89). `imm` is the immediate value, `zp` the zero-page
address or pointer address, `abs` the 16-bit address operand. -/
inductive Instr where
  /-- LDA Immediate, opcode 0xA9 (R123). -/
  | ldaImm (imm : Byte)
  /-- LDA ZeroPage, opcode 0xA5 (R124). -/
  | ldaZp (zp : Byte)
  /-- LDA ZeroPageX, opcode 0xB5 (R125). -/
  | ldaZpX (zp : Byte)
  /-- LDA Absolute, opcode 0xAD (R126). -/
  | ldaAbs (abs : Word)
  /-- LDA AbsoluteX, opcode 0xBD (R127). -/
  | ldaAbsX (abs : Word)
  /-- LDA AbsoluteY, opcode 0xB9 (R128). -/
  | ldaAbsY (abs : Word)
  /-- LDA IndirectX, opcode 0xA1 (R129). -/
  | ldaIndX (zp : Byte)
  /-- LDA IndirectY, opcode 0xB1 (R130). -/
  | ldaIndY (zp : Byte)
  /-- LDX Immediate, opcode 0xA2 (R131). -/
  | ldxImm (imm : Byte)
  /-- LDX ZeroPage, opcode 0xA6 (R132). -/
  | ldxZp (zp : Byte)
  /-- LDX ZeroPageY, opcode 0xB6 (R133). -/
  | ldxZpY (zp : Byte)
  /-- LDX Absolute, opcode 0xAE (R134). -/
  | ldxAbs (abs : Word)
  /-- LDX AbsoluteY, opcode 0xBE (R135). -/
  | ldxAbsY (abs : Word)
  /-- LDY Immediate, opcode 0xA0 (R136). -/
  | ldyImm (imm : Byte)
  /-- LDY ZeroPage, opcode 0xA4 (R137). -/
  | ldyZp (zp : Byte)
  /-- LDY ZeroPageX, opcode 0xB4 (R138). -/
  | ldyZpX (zp : Byte)
  /-- LDY Absolute, opcode 0xAC (R139). -/
  | ldyAbs (abs : Word)
  /-- LDY AbsoluteX, opcode 0xBC (R140). -/
  | ldyAbsX (abs : Word)
  /-- STA ZeroPage, opcode 0x85 (R152). -/
  | staZp (zp : Byte)
  /-- STA ZeroPageX, opcode 0x95 (R153). -/
  | staZpX (zp : Byte)
  /-- STA Absolute, opcode 0x8D (R154). -/
  | staAbs (abs : Word)
  /-- STA AbsoluteX, opcode 0x9D (R155). -/
  | staAbsX (abs : Word)
  /-- STA AbsoluteY, opcode 0x99 (R156). -/
  | staAbsY (abs : Word)
  /-- STA IndirectX, opcode 0x81 (R157). -/
  | staIndX (zp : Byte)
  /-- STA IndirectY, opcode 0x91 (R158). -/
  | staIndY (zp : Byte)
  /-- STX ZeroPage, opcode 0x86 (R159). -/
  | stxZp (zp : Byte)
  /-- STX ZeroPageY, opcode 0x96 (R160). -/
  | stxZpY (zp : Byte)
  /-- STX Absolute, opcode 0x8E (R161). -/
  | stxAbs (abs : Word)
  /-- STY ZeroPage, opcode 0x84 (R162). -/
  | styZp (zp : Byte)
  /-- STY ZeroPageX, opcode 0x94 (R163). -/
  | styZpX (zp : Byte)
  /-- STY Absolute, opcode 0x8C (R164). -/
  | styAbs (abs : Word)
  /-- TAX Implied, opcode 0xAA (R171). -/
  | tax
  /-- TAY Implied, opcode 0xA8 (R172). -/
  | tay
  /-- TXA Implied, opcode 0x8A (R173). -/
  | txa
  /-- TYA Implied, opcode 0x98 (R174). -/
  | tya
  /-- BREAK Implied, opcode 0x00 (R180). -/
  | brk
deriving DecidableEq, Repr

/-- R36: what the builder hands to the execution engine, `addr` being the address of the opcode byte.
The record's other fields (opcode, mnemonic, mode, operand, len) are functions of `instr`. -/
structure Descriptor where
  instr : Instr
  addr : Word
deriving DecidableEq, Repr

/-- R37: why the builder stopped. `fallThrough` is in the source's type and never produced (R196). -/
inductive Terminal where
  | fallThrough
  | exit
  | tooManyInstructions
deriving DecidableEq, Repr

/-- R37: a translation block. It lives only inside one block step. -/
structure Block where
  startPc : Word
  instructions : List Descriptor
  terminal : Terminal
deriving DecidableEq, Repr

end Sys2Proof
end

