-- ==== Sys2Proof/Decode.lean ====
section
/-! DEFINITION. The encoding tables of spec/30_encoding.md: operand widths (R86), the opcode map (R89),
operand assembly (R85), the decoder of a byte list, the encoder, and the host's `decodeTableWord`.
UNVERIFIED, unsafe: the spec marks the byte values and the mode sets as general knowledge, not from its
source (spec/93_implementation_defined.md G1, G2; notes/assumptions/16.md). -/

namespace Sys2Proof

/-- Operand bytes per mode (R86). -/
def AddressingMode.operandBytes : AddressingMode → Nat
  | .implied => 0
  | .immediate | .zeroPage | .zeroPageX | .zeroPageY | .indirectX | .indirectY => 1
  | .absolute | .absoluteX | .absoluteY => 2

/-- The mnemonic of a row (R89, R90). -/
def Instr.mnemonic : Instr → Mnemonic
  | .ldaImm _ => .LDA
  | .ldaZp _ => .LDA
  | .ldaZpX _ => .LDA
  | .ldaAbs _ => .LDA
  | .ldaAbsX _ => .LDA
  | .ldaAbsY _ => .LDA
  | .ldaIndX _ => .LDA
  | .ldaIndY _ => .LDA
  | .ldxImm _ => .LDX
  | .ldxZp _ => .LDX
  | .ldxZpY _ => .LDX
  | .ldxAbs _ => .LDX
  | .ldxAbsY _ => .LDX
  | .ldyImm _ => .LDY
  | .ldyZp _ => .LDY
  | .ldyZpX _ => .LDY
  | .ldyAbs _ => .LDY
  | .ldyAbsX _ => .LDY
  | .staZp _ => .STA
  | .staZpX _ => .STA
  | .staAbs _ => .STA
  | .staAbsX _ => .STA
  | .staAbsY _ => .STA
  | .staIndX _ => .STA
  | .staIndY _ => .STA
  | .stxZp _ => .STX
  | .stxZpY _ => .STX
  | .stxAbs _ => .STX
  | .styZp _ => .STY
  | .styZpX _ => .STY
  | .styAbs _ => .STY
  | .tax => .TAX
  | .tay => .TAY
  | .txa => .TXA
  | .tya => .TYA
  | .brk => .BREAK

/-- The addressing mode of a row (R89, R90). -/
def Instr.mode : Instr → AddressingMode
  | .ldaImm _ => .immediate
  | .ldaZp _ => .zeroPage
  | .ldaZpX _ => .zeroPageX
  | .ldaAbs _ => .absolute
  | .ldaAbsX _ => .absoluteX
  | .ldaAbsY _ => .absoluteY
  | .ldaIndX _ => .indirectX
  | .ldaIndY _ => .indirectY
  | .ldxImm _ => .immediate
  | .ldxZp _ => .zeroPage
  | .ldxZpY _ => .zeroPageY
  | .ldxAbs _ => .absolute
  | .ldxAbsY _ => .absoluteY
  | .ldyImm _ => .immediate
  | .ldyZp _ => .zeroPage
  | .ldyZpX _ => .zeroPageX
  | .ldyAbs _ => .absolute
  | .ldyAbsX _ => .absoluteX
  | .staZp _ => .zeroPage
  | .staZpX _ => .zeroPageX
  | .staAbs _ => .absolute
  | .staAbsX _ => .absoluteX
  | .staAbsY _ => .absoluteY
  | .staIndX _ => .indirectX
  | .staIndY _ => .indirectY
  | .stxZp _ => .zeroPage
  | .stxZpY _ => .zeroPageY
  | .stxAbs _ => .absolute
  | .styZp _ => .zeroPage
  | .styZpX _ => .zeroPageX
  | .styAbs _ => .absolute
  | .tax => .implied
  | .tay => .implied
  | .txa => .implied
  | .tya => .implied
  | .brk => .implied

/-- The opcode byte of a row (R89). -/
def Instr.opcode : Instr → Byte
  | .ldaImm _ => 0xA9
  | .ldaZp _ => 0xA5
  | .ldaZpX _ => 0xB5
  | .ldaAbs _ => 0xAD
  | .ldaAbsX _ => 0xBD
  | .ldaAbsY _ => 0xB9
  | .ldaIndX _ => 0xA1
  | .ldaIndY _ => 0xB1
  | .ldxImm _ => 0xA2
  | .ldxZp _ => 0xA6
  | .ldxZpY _ => 0xB6
  | .ldxAbs _ => 0xAE
  | .ldxAbsY _ => 0xBE
  | .ldyImm _ => 0xA0
  | .ldyZp _ => 0xA4
  | .ldyZpX _ => 0xB4
  | .ldyAbs _ => 0xAC
  | .ldyAbsX _ => 0xBC
  | .staZp _ => 0x85
  | .staZpX _ => 0x95
  | .staAbs _ => 0x8D
  | .staAbsX _ => 0x9D
  | .staAbsY _ => 0x99
  | .staIndX _ => 0x81
  | .staIndY _ => 0x91
  | .stxZp _ => 0x86
  | .stxZpY _ => 0x96
  | .stxAbs _ => 0x8E
  | .styZp _ => 0x84
  | .styZpX _ => 0x94
  | .styAbs _ => 0x8C
  | .tax => 0xAA
  | .tay => 0xA8
  | .txa => 0x8A
  | .tya => 0x98
  | .brk => 0x00

/-- The operand as a raw unsigned 16-bit number (R36, R85): zero-extended, 0 for `implied`. -/
def Instr.operand : Instr → Word
  | .ldaImm b => zext16 b
  | .ldaZp b => zext16 b
  | .ldaZpX b => zext16 b
  | .ldaAbs abs => abs
  | .ldaAbsX abs => abs
  | .ldaAbsY abs => abs
  | .ldaIndX b => zext16 b
  | .ldaIndY b => zext16 b
  | .ldxImm b => zext16 b
  | .ldxZp b => zext16 b
  | .ldxZpY b => zext16 b
  | .ldxAbs abs => abs
  | .ldxAbsY abs => abs
  | .ldyImm b => zext16 b
  | .ldyZp b => zext16 b
  | .ldyZpX b => zext16 b
  | .ldyAbs abs => abs
  | .ldyAbsX abs => abs
  | .staZp b => zext16 b
  | .staZpX b => zext16 b
  | .staAbs abs => abs
  | .staAbsX abs => abs
  | .staAbsY abs => abs
  | .staIndX b => zext16 b
  | .staIndY b => zext16 b
  | .stxZp b => zext16 b
  | .stxZpY b => zext16 b
  | .stxAbs abs => abs
  | .styZp b => zext16 b
  | .styZpX b => zext16 b
  | .styAbs abs => abs
  | .tax => 0
  | .tay => 0
  | .txa => 0
  | .tya => 0
  | .brk => 0

/-- The encoded length in bytes (R80, R86). -/
def Instr.len (i : Instr) : Nat := 1 + i.mode.operandBytes

/-- The `len` of R36. -/
def Descriptor.len (d : Descriptor) : Nat := d.instr.len

/-- BREAK is the one control-terminating instruction (R180, R195). -/
def Instr.isBreak (i : Instr) : Bool := i.mnemonic == .BREAK

/-- The three formats of R81, each with the row's instruction as a function of its operand. -/
inductive Form where
  | f1 (i : Instr)
  | f2 (mk : Byte → Instr)
  | f3 (mk : Word → Instr)

/-- The number of operand bytes of a format (R81). -/
def Form.operandBytes : Form → Nat
  | .f1 _ => 0
  | .f2 _ => 1
  | .f3 _ => 2

/-- The opcode map in ascending order of the opcode byte (R89). -/
def opcodeTable : List (Byte × Form) :=
  [(0x00, .f1 .brk), (0x81, .f2 .staIndX), (0x84, .f2 .styZp),
   (0x85, .f2 .staZp), (0x86, .f2 .stxZp), (0x8A, .f1 .txa),
   (0x8C, .f3 .styAbs), (0x8D, .f3 .staAbs), (0x8E, .f3 .stxAbs),
   (0x91, .f2 .staIndY), (0x94, .f2 .styZpX), (0x95, .f2 .staZpX)] ++
  [(0x96, .f2 .stxZpY), (0x98, .f1 .tya), (0x99, .f3 .staAbsY),
   (0x9D, .f3 .staAbsX), (0xA0, .f2 .ldyImm), (0xA1, .f2 .ldaIndX),
   (0xA2, .f2 .ldxImm), (0xA4, .f2 .ldyZp), (0xA5, .f2 .ldaZp),
   (0xA6, .f2 .ldxZp), (0xA8, .f1 .tay), (0xA9, .f2 .ldaImm)] ++
  [(0xAA, .f1 .tax), (0xAC, .f3 .ldyAbs), (0xAD, .f3 .ldaAbs),
   (0xAE, .f3 .ldxAbs), (0xB1, .f2 .ldaIndY), (0xB4, .f2 .ldyZpX),
   (0xB5, .f2 .ldaZpX), (0xB6, .f2 .ldxZpY), (0xB9, .f3 .ldaAbsY),
   (0xBC, .f3 .ldyAbsX), (0xBD, .f3 .ldaAbsX), (0xBE, .f3 .ldxAbsY)]

/-- The row of an opcode byte, none for the 220 illegal values (R89, R92). -/
def decodeOpcode (op : Byte) : Option Form :=
  (opcodeTable.find? (fun row => row.1 == op)).map Prod.snd

/-- Why a byte list is no instruction. -/
inductive DecodeError where
  /-- The opcode byte is in no row (R92). -/
  | illegalOpcode (op : Byte)
  /-- The list ends before the instruction does. -/
  | truncated
deriving DecidableEq, Repr

/-- The decoder on a list of bytes, with the bytes it leaves (R80, R85, R88). Total. -/
def decodeBytes : List Byte → Attempt DecodeError (Instr × List Byte)
  | [] => .raised .truncated
  | op :: rest =>
    match decodeOpcode op, rest with
    | none, _ => .raised (.illegalOpcode op)
    | some (.f1 i), rest => .done (i, rest)
    | some (.f2 mk), b1 :: rest => .done (mk b1, rest)
    | some (.f3 mk), b1 :: b2 :: rest => .done (mk (wordOfBytes b2 b1), rest)
    | some _, _ => .raised .truncated

/-- The operand bytes in ascending address order, low byte first (R81, R85). -/
def Instr.operandByteList (i : Instr) : List Byte :=
  match i.mode.operandBytes with
  | 0 => []
  | 1 => [loByte i.operand]
  | _ => [loByte i.operand, hiByte i.operand]

/-- The encoder: the bytes of an instruction (R81, R85, R89). -/
def encode (i : Instr) : List Byte := i.opcode :: i.operandByteList

/-- The three bytes an opcode-table word stands for: bit 0 is the least significant bit of the first
byte, a later byte's bits count on from it, and every bit from `nbits` up is 0. -/
def tableBytes (nbits w : Nat) : List Byte :=
  let v := w % 2 ^ nbits
  [BitVec.ofNat 8 v, BitVec.ofNat 8 (v / 256), BitVec.ofNat 8 (v / 65536)]

/-- The instruction the decoder reads from an opcode-table word. -/
def decodeTableWord (nbits w : Nat) : Option Instr :=
  match decodeBytes (tableBytes nbits w) with
  | .done (i, _) => some i
  | .raised _ => none

end Sys2Proof
end

