-- ==== Sys2Proof/Machine/Operands.lean ====
section
/-! DEFINITION. The addressing-mode resolver (spec/40_addressing_modes.md). It reads `x`, `y` and memory as
they are when the instruction executes and writes nothing (R100). -/

namespace Sys2Proof.Machine

/-- What a `(mode, operand)` resolves to (R100). -/
inductive Resolved where
  | imm (v : Byte)
  | addr (ea : Word)
  | none
deriving DecidableEq, Repr

/-- The zero-page indexed sum under `ZP_INDEX_POLICY` (R6, R103, R104). -/
def zeroPageIndexed (policy : ZpIndexPolicy) (base index : Byte) : Word :=
  match policy with
  | .rawAdd => zext16 base + zext16 index
  | .strictWrap => zext16 (base + index)

/-- `resolve(mode, operand)` (R101 to R110). The IndirectX pointer sum is modulo 256 under both policies
(R108); absolute and IndirectY sums are modulo 65536 (R106, R107, R109). -/
def resolve (mode : AddressingMode) (operand : Word) (s : State) : Attempt Word Resolved :=
  match mode with
  | .immediate => .done (.imm (loByte operand))
  | .zeroPage => .done (.addr (zext16 (loByte operand)))
  | .zeroPageX => .done (.addr (zeroPageIndexed s.cfg.zpIndexPolicy (loByte operand) s.x))
  | .zeroPageY => .done (.addr (zeroPageIndexed s.cfg.zpIndexPolicy (loByte operand) s.y))
  | .absolute => .done (.addr operand)
  | .absoluteX => .done (.addr (operand + zext16 s.x))
  | .absoluteY => .done (.addr (operand + zext16 s.y))
  | .indirectX =>
    match s.memRead2 (zext16 (loByte operand + s.x)) with
    | .raised a => .raised a
    | .done ea => .done (.addr ea)
  | .indirectY =>
    match s.memRead2 (zext16 (loByte operand)) with
    | .raised a => .raised a
    | .done base => .done (.addr (base + zext16 s.y))
  | .implied => .done .none

end Sys2Proof.Machine
end

