-- ==== Sys2Proof/Machine/Loads.lean ====
section
/-! DEFINITION. LDA, LDX, LDY (spec/41_loads.md). One shared operation, one definition per opcode. No
load writes a flag (R120, spec/10_state.md R31). -/

namespace Sys2Proof.Machine

/-- R120, R121: copy the immediate or the byte at the effective address into `dest`, then advance `pc`
by the encoded length. A failing read leaves the instruction without effect (R203). -/
def load (dest : Reg) (mode : AddressingMode) (operand : Word) (s : State) :
    Host.Outcome State Fault Refusal :=
  match resolve mode operand s with
  | .raised a => s.raise (.memoryTransactionError a)
  | .done (.imm v) => .next ((s.setReg dest v).advance (1 + mode.operandBytes))
  | .done (.addr ea) =>
    match s.memRead1 ea with
    | .raised a => s.raise (.memoryTransactionError a)
    | .done v => .next ((s.setReg dest v).advance (1 + mode.operandBytes))
  | .done .none => .next (s.advance (1 + mode.operandBytes))

/-- LDA Immediate, opcode 0xA9 (R123). -/
def execLdaImm (imm : Byte) (s : State) : Host.Outcome State Fault Refusal :=
  load .acc .immediate (zext16 imm) s

/-- LDA ZeroPage, opcode 0xA5 (R124). -/
def execLdaZp (zp : Byte) (s : State) : Host.Outcome State Fault Refusal :=
  load .acc .zeroPage (zext16 zp) s

/-- LDA ZeroPageX, opcode 0xB5 (R125). -/
def execLdaZpX (zp : Byte) (s : State) : Host.Outcome State Fault Refusal :=
  load .acc .zeroPageX (zext16 zp) s

/-- LDA Absolute, opcode 0xAD (R126). -/
def execLdaAbs (abs : Word) (s : State) : Host.Outcome State Fault Refusal :=
  load .acc .absolute abs s

/-- LDA AbsoluteX, opcode 0xBD (R127). -/
def execLdaAbsX (abs : Word) (s : State) : Host.Outcome State Fault Refusal :=
  load .acc .absoluteX abs s

/-- LDA AbsoluteY, opcode 0xB9 (R128). -/
def execLdaAbsY (abs : Word) (s : State) : Host.Outcome State Fault Refusal :=
  load .acc .absoluteY abs s

/-- LDA IndirectX, opcode 0xA1 (R129). -/
def execLdaIndX (zp : Byte) (s : State) : Host.Outcome State Fault Refusal :=
  load .acc .indirectX (zext16 zp) s

/-- LDA IndirectY, opcode 0xB1 (R130). -/
def execLdaIndY (zp : Byte) (s : State) : Host.Outcome State Fault Refusal :=
  load .acc .indirectY (zext16 zp) s

/-- LDX Immediate, opcode 0xA2 (R131). -/
def execLdxImm (imm : Byte) (s : State) : Host.Outcome State Fault Refusal :=
  load .x .immediate (zext16 imm) s

/-- LDX ZeroPage, opcode 0xA6 (R132). -/
def execLdxZp (zp : Byte) (s : State) : Host.Outcome State Fault Refusal :=
  load .x .zeroPage (zext16 zp) s

/-- LDX ZeroPageY, opcode 0xB6 (R133). -/
def execLdxZpY (zp : Byte) (s : State) : Host.Outcome State Fault Refusal :=
  load .x .zeroPageY (zext16 zp) s

/-- LDX Absolute, opcode 0xAE (R134). -/
def execLdxAbs (abs : Word) (s : State) : Host.Outcome State Fault Refusal :=
  load .x .absolute abs s

/-- LDX AbsoluteY, opcode 0xBE (R135). -/
def execLdxAbsY (abs : Word) (s : State) : Host.Outcome State Fault Refusal :=
  load .x .absoluteY abs s

/-- LDY Immediate, opcode 0xA0 (R136). -/
def execLdyImm (imm : Byte) (s : State) : Host.Outcome State Fault Refusal :=
  load .y .immediate (zext16 imm) s

/-- LDY ZeroPage, opcode 0xA4 (R137). -/
def execLdyZp (zp : Byte) (s : State) : Host.Outcome State Fault Refusal :=
  load .y .zeroPage (zext16 zp) s

/-- LDY ZeroPageX, opcode 0xB4 (R138). -/
def execLdyZpX (zp : Byte) (s : State) : Host.Outcome State Fault Refusal :=
  load .y .zeroPageX (zext16 zp) s

/-- LDY Absolute, opcode 0xAC (R139). -/
def execLdyAbs (abs : Word) (s : State) : Host.Outcome State Fault Refusal :=
  load .y .absolute abs s

/-- LDY AbsoluteX, opcode 0xBC (R140). -/
def execLdyAbsX (abs : Word) (s : State) : Host.Outcome State Fault Refusal :=
  load .y .absoluteX abs s

end Sys2Proof.Machine
end

