-- ==== Sys2Proof/Machine/Stores.lean ====
section
/-! DEFINITION. STA, STX, STY (spec/42_stores.md). One shared operation, one definition per opcode. No
store writes a flag or any register but `pc` (R150). -/

namespace Sys2Proof.Machine

/-- R150, R151: write the byte of `src` to the effective address, then advance `pc` by the encoded
length. A failing pointer read or write leaves the instruction without effect (R203); a write to
`Rom(_, Ignore)` changes nothing and completes. -/
def store (src : Reg) (mode : AddressingMode) (operand : Word) (s : State) :
    Host.Outcome State Fault Refusal :=
  match resolve mode operand s with
  | .raised a => s.raise (.memoryTransactionError a)
  | .done (.addr ea) =>
    match s.memWrite1 ea (s.reg src) with
    | .raised a => s.raise (.memoryTransactionError a)
    | .done s' => .next (s'.advance (1 + mode.operandBytes))
  | .done _ => .next (s.advance (1 + mode.operandBytes))

/-- STA ZeroPage, opcode 0x85 (R152). -/
def execStaZp (zp : Byte) (s : State) : Host.Outcome State Fault Refusal :=
  store .acc .zeroPage (zext16 zp) s

/-- STA ZeroPageX, opcode 0x95 (R153). -/
def execStaZpX (zp : Byte) (s : State) : Host.Outcome State Fault Refusal :=
  store .acc .zeroPageX (zext16 zp) s

/-- STA Absolute, opcode 0x8D (R154). -/
def execStaAbs (abs : Word) (s : State) : Host.Outcome State Fault Refusal :=
  store .acc .absolute abs s

/-- STA AbsoluteX, opcode 0x9D (R155). -/
def execStaAbsX (abs : Word) (s : State) : Host.Outcome State Fault Refusal :=
  store .acc .absoluteX abs s

/-- STA AbsoluteY, opcode 0x99 (R156). -/
def execStaAbsY (abs : Word) (s : State) : Host.Outcome State Fault Refusal :=
  store .acc .absoluteY abs s

/-- STA IndirectX, opcode 0x81 (R157). -/
def execStaIndX (zp : Byte) (s : State) : Host.Outcome State Fault Refusal :=
  store .acc .indirectX (zext16 zp) s

/-- STA IndirectY, opcode 0x91 (R158). -/
def execStaIndY (zp : Byte) (s : State) : Host.Outcome State Fault Refusal :=
  store .acc .indirectY (zext16 zp) s

/-- STX ZeroPage, opcode 0x86 (R159). -/
def execStxZp (zp : Byte) (s : State) : Host.Outcome State Fault Refusal :=
  store .x .zeroPage (zext16 zp) s

/-- STX ZeroPageY, opcode 0x96 (R160). -/
def execStxZpY (zp : Byte) (s : State) : Host.Outcome State Fault Refusal :=
  store .x .zeroPageY (zext16 zp) s

/-- STX Absolute, opcode 0x8E (R161). -/
def execStxAbs (abs : Word) (s : State) : Host.Outcome State Fault Refusal :=
  store .x .absolute abs s

/-- STY ZeroPage, opcode 0x84 (R162). -/
def execStyZp (zp : Byte) (s : State) : Host.Outcome State Fault Refusal :=
  store .y .zeroPage (zext16 zp) s

/-- STY ZeroPageX, opcode 0x94 (R163). -/
def execStyZpX (zp : Byte) (s : State) : Host.Outcome State Fault Refusal :=
  store .y .zeroPageX (zext16 zp) s

/-- STY Absolute, opcode 0x8C (R164). -/
def execStyAbs (abs : Word) (s : State) : Host.Outcome State Fault Refusal :=
  store .y .absolute abs s

end Sys2Proof.Machine
end

