-- ==== Sys2Proof/Machine/Transfers.lean ====
section
/-! DEFINITION. TAX, TAY, TXA, TYA (spec/43_transfers.md). UNVERIFIED, unsafe: the direction is the spec's
from general knowledge (spec/93_implementation_defined.md G3; notes/assumptions/16.md). -/

namespace Sys2Proof.Machine

/-- R170: copy `src` into `dest`, leave `src` unchanged, advance `pc` by 1. No flag, no memory access,
no error. -/
def transfer (src dest : Reg) (s : State) : Host.Outcome State Fault Refusal :=
  .next ((s.setReg dest (s.reg src)).advance 1)

/-- TAX, opcode 0xAA (R171): `x <- acc`. -/
def execTax (s : State) : Host.Outcome State Fault Refusal := transfer .acc .x s

/-- TAY, opcode 0xA8 (R172): `y <- acc`. -/
def execTay (s : State) : Host.Outcome State Fault Refusal := transfer .acc .y s

/-- TXA, opcode 0x8A (R173): `acc <- x`. -/
def execTxa (s : State) : Host.Outcome State Fault Refusal := transfer .x .acc s

/-- TYA, opcode 0x98 (R174): `acc <- y`. -/
def execTya (s : State) : Host.Outcome State Fault Refusal := transfer .y .acc s

end Sys2Proof.Machine
end

