-- ==== Sys2Proof/Machine/Fetch.lean ====
section
/-! DEFINITION. The decoder over memory (spec/30_encoding.md R88) and the translation-unit builder
(spec/45_block_execution.md R191 to R199). They read memory and nothing else of the state. -/

namespace Sys2Proof.Machine

/-- Operand assembly from memory, in ascending address order (R85). -/
def State.readOperand (s : State) (a : Word) : Form → Attempt FaultCause Descriptor
  | .f1 i => .done ⟨i, a⟩
  | .f2 make =>
    match s.memRead1 (a + 1) with
    | .raised e => .raised (.memoryTransactionError e)
    | .done b1 => .done ⟨make b1, a⟩
  | .f3 make =>
    match s.memRead1 (a + 1) with
    | .raised e => .raised (.memoryTransactionError e)
    | .done b1 =>
      match s.memRead1 (a + 2) with
      | .raised e => .raised (.memoryTransactionError e)
      | .done b2 => .done ⟨make (wordOfBytes b2 b1), a⟩

/-- `decode(a)` (R88): opcode byte, row, range of the last operand byte (R194), operand bytes. The first
check that fails is the error (spec/60_exceptions.md R222). -/
def State.decodeAt (s : State) (a : Word) : Attempt FaultCause Descriptor :=
  match s.memRead1 a with
  | .raised e => .raised (.memoryTransactionError e)
  | .done op =>
    match decodeOpcode op with
    | none => .raised (.illegalInstruction a op)
    | some form =>
      if lastFetchAddr.toNat < a.toNat + form.operandBytes then .raised (.fetchOutOfRange a)
      else s.readOperand a form

/-- The loop of R192 from address `a` with room for `n` more instructions: range test (R193), decode,
append, then the stop tests in the order BREAK, cap (R195). -/
def State.buildFrom (s : State) : Nat → Word → Attempt FaultCause (List Descriptor × Terminal)
  | 0, _ => .done ([], .tooManyInstructions)
  | n + 1, a =>
    if lastFetchAddr < a then .raised (.fetchOutOfRange a)
    else
      match s.decodeAt a with
      | .raised e => .raised e
      | .done d =>
        if d.instr.isBreak then .done ([d], .exit)
        else
          match s.buildFrom n (a + BitVec.ofNat 16 d.len) with
          | .raised e => .raised e
          | .done (ds, t) => .done (d :: ds, t)

/-- `build_block(start_pc, MAX_INSNS)` (R191, R192). -/
def State.buildBlock (s : State) (startPc : Word) : Attempt FaultCause Block :=
  match s.buildFrom s.cfg.maxInsns startPc with
  | .raised e => .raised e
  | .done (ds, t) => .done ⟨startPc, ds, t⟩

end Sys2Proof.Machine
end

