-- ==== Sys2Proof/Machine/Engine.lean ====
section
/-! DEFINITION. The execution engine and the block step (spec/45_block_execution.md R190, R199 to R204). -/

namespace Sys2Proof.Machine

/-- `run_block` (R200 to R204): each descriptor in order, as decoded; it stops after BREAK (R204) and at
the first error (R203). The terminal is not consulted (R196). -/
def runDescriptors : List Descriptor → State → Host.Outcome State Fault Refusal
  | [], s => .next s
  | d :: ds, s =>
    match exec d.instr s with
    | .next s' => if s'.status = .running then runDescriptors ds s' else .next s'
    | .fault f => .fault f
    | .refused r => .refused r

/-- Steps 2 and 3 of a block step (R190): build one block at `pc`, then run it. On a build error no
instruction executes and the state is kept with `status <- Fault(E)` (R199). -/
def buildAndRun (s : State) : Host.Outcome State Fault Refusal :=
  match s.buildBlock s.pc with
  | .raised e => s.raise e
  | .done blk => runDescriptors blk.instructions s

/-- `BlockStep` (R190) in status `Running`. `MAX_INSNS = 0` is refused at configuration (R7, U3;
DEDUCED, safe: notes/assumptions/11.md). -/
def blockStep (s : State) : Host.Outcome State Fault Refusal :=
  if s.cfg.maxInsns = 0 then .refused .zeroBlockCap
  else buildAndRun s.boundaryCheck

end Sys2Proof.Machine
end

