-- ==== Sys2Proof/Machine/Step.lean ====
section
/-! DEFINITION. One step of the core is one block step (spec/45_block_execution.md R190). -/

namespace Sys2Proof.Machine

/-- The core's step, enabled exactly when `status = Running` (R190, R38). A halted core has no step and
is refused; a faulted core answers its fault again, so a fault is never a successful end of a run
(R13; DESIGN CHOICE, safe: notes/assumptions/7.md). -/
def step (s : State) : Host.Outcome State Fault Refusal :=
  match s.status with
  | .running => blockStep s
  | .halted r => .refused (.halted r)
  | .fault c => .fault (c.stop s)

/-- `s` with the instruction of an opcode-table word loaded where the next block step fetches, and
`MAX_INSNS = 1`, so that the step runs that one instruction (notes/assumptions/14.md). -/
def State.withFetchWord (s : State) (nbits w : Nat) : State :=
  { s.hostLoadNext (tableBytes nbits w) with cfg := { s.cfg with maxInsns := 1 } }

end Sys2Proof.Machine
end

