-- ==== Sys2Proof/Machine/Platform.lean ====
section
/-! DEFINITION. The one platform the spec describes, as a value of `MEMMAP` (spec/20_memory.md R62). It is
not part of the core: no other definition of the model uses it. -/

namespace Sys2Proof

/-- The `k`-th place where the low RAM is seen; every copy is backed by the cells of the first. -/
def LowRam.copy (r : LowRam) (k : Nat) : Region where
  first := BitVec.ofNat 16 (r.first + k * r.stride)
  last := BitVec.ofNat 16 (r.first + k * r.stride + r.size - 1)
  kind := .ram
  cell := BitVec.ofNat 16 r.first
  period := 0

/-- The RAM window `[0x6000,0x7FFF]` (R62), each address its own cell. -/
def ramWindow : Region := ⟨0x6000, 0x7FFF, .ram, 0x6000, 0⟩

/-- The ROM window `[0x8000,0xFFFF]` (R62), each address its own cell; it holds the vector table. -/
def romWindow (onWrite : OnWrite) : Region := ⟨0x8000, 0xFFFF, .rom onWrite, 0x8000, 0⟩

/-- `MEMMAP` of the mapper-0 platform (R62). Its parameters are the low RAM and what a write to its ROM
does. DESIGN CHOICE, safe: an address below 0x6000 in no copy is `Unmapped` (notes/assumptions/18.md). -/
def MemMap.mapper0 (low : LowRam) (onWrite : OnWrite) : MemMap :=
  ramWindow :: romWindow onWrite :: (List.range low.copies).map low.copy

end Sys2Proof
end

