-- ==== Sys2Proof/Machine/Agents.lean ====
section
/-! DEFINITION. The three agents of spec/00_scope.md R12 and their steps. Signals and host accesses act
between block steps: a signal during one is indistinguishable from one just after it (R225; DEDUCED,
safe: notes/assumptions/12.md), and the host may not act during one (R40, R66, U24). -/

namespace Sys2Proof.Machine

/-- One step of one agent. -/
inductive Event where
  /-- The core: one block step (R190). -/
  | blockStep
  /-- The signaller: `Signal(k)` (R225). -/
  | signal (k : IrqKind)
  /-- The host: a write through the debug port (R40). -/
  | debugWrite (index : Nat) (value : Word)
  /-- The host: a byte placed into memory (R66, R276). -/
  | hostLoad (addr : Word) (value : Byte)
deriving DecidableEq, Repr

/-- What one agent's step does. -/
def agentStep (e : Event) (s : State) : Host.Outcome State Fault Refusal :=
  match e with
  | .blockStep => step s
  | .signal k => .next (s.signal k)
  | .debugWrite i v => s.dbgWrite i v
  | .hostLoad a v => .next (s.hostLoad a v)

/-- A schedule of agent steps, stopping at the first fault or refusal. -/
def runEvents : List Event → State → Host.Outcome State Fault Refusal
  | [], s => .next s
  | e :: es, s =>
    match agentStep e s with
    | .next s' => runEvents es s'
    | .fault f => .fault f
    | .refused r => .refused r

end Sys2Proof.Machine
end

