-- ==== Sys2Proof/WellFormed.lean ====
section
/-! DEFINITION. The checks the spec puts on its records: configuration (spec/00_scope.md R7), low RAM
(spec/20_memory.md R62), descriptor (spec/45_block_execution.md R194) and block (R197). An `Instr` needs none: its types admit exactly the
operands that exist (spec/30_encoding.md R93). -/

namespace Sys2Proof

/-- `MAX_INSNS >= 1` (R7). `STACK_BASE` needs no check: its type holds the two admitted values (R8). -/
def Config.wellFormed (c : Config) : Bool := decide (1 ≤ c.maxInsns)

/-- R62: there is low RAM, its copies do not overlap and lie below the RAM window at 0x6000. -/
def LowRam.wellFormed (r : LowRam) : Bool :=
  decide (1 ≤ r.size) && decide (r.size ≤ r.stride) && decide (1 ≤ r.copies) &&
    decide (r.first + (r.copies - 1) * r.stride + r.size ≤ 0x6000)

/-- Every byte of the instruction lies at or below `LAST_FETCH_ADDR` (R193, R194). -/
def Descriptor.wellFormed (d : Descriptor) : Bool :=
  decide (d.addr.toNat + d.len ≤ lastFetchAddr.toNat + 1)

/-- The descriptors are contiguous from `a` on, each well-formed, and only the last may be BREAK
(R197). -/
def contiguousFrom : Word → List Descriptor → Bool
  | _, [] => true
  | a, d :: ds => decide (d.addr = a) && d.wellFormed && (ds.isEmpty || !d.instr.isBreak) &&
      contiguousFrom (a + BitVec.ofNat 16 d.len) ds

/-- Whether the last descriptor is BREAK. -/
def endsInBreak (ds : List Descriptor) : Bool :=
  match ds.getLast? with
  | some d => d.instr.isBreak
  | none => false

/-- R197: between 1 and `MAX_INSNS` instructions, contiguous from `start_pc`, only the last BREAK, and
`terminal = Exit` exactly when the last is BREAK, else `TooManyInstructions` (R196). -/
def Block.wellFormed (maxInsns : Nat) (b : Block) : Bool :=
  decide (1 ≤ b.instructions.length) && decide (b.instructions.length ≤ maxInsns) &&
    contiguousFrom b.startPc b.instructions &&
    decide (b.terminal = if endsInBreak b.instructions then .exit else .tooManyInstructions)

end Sys2Proof
end

