-- ==== Sys2Proof/Safety.lean ====
section
/-! DEFINITION. What claims mean by a good state, a good platform and a safe run. -/

namespace Sys2Proof.Machine

/-- The invariant of the model: memory is in its canonical form. -/
def State.Inv (s : State) : Prop := s.mem.wf = true

/-- The address can be read: `Ram` or `Rom` (spec/20_memory.md R52, R56). -/
def State.Readable (s : State) (a : Word) : Prop := s.entry a ≠ .unmapped

/-- A write to the address does not raise: `Ram` or `Rom(_, Ignore)` (spec/20_memory.md R54). -/
def State.Writable (s : State) (a : Word) : Prop :=
  s.entry a ≠ .unmapped ∧ ∀ c, s.entry a ≠ .rom c .reject

/-- Two addresses are backed by the same storage byte (spec/20_memory.md R51). -/
def State.SameCell (s : State) (a b : Word) : Prop :=
  ∃ c, (s.entry a).readCell? = some c ∧ (s.entry b).readCell? = some c

/-- The platform premises of spec/70_reset_and_hazards.md R276 (c) and (d) under which a delivery never
aborts: vectors readable, push area writable. -/
def State.DeliveryPremises (s : State) : Prop :=
  (∀ a : Word, 0xFFFA ≤ a → s.Readable a) ∧ (∀ p : Byte, s.Writable (s.pushAddr p))

/-- Every address can be read and written without an error. -/
def State.FullyMapped (s : State) : Prop := ∀ a, s.Writable a

/-- The step does not end in a fault. -/
def State.SafeStep (s : State) : Prop := ∀ f, step s ≠ .fault f

/-- No block step of the schedule ends in a fault. -/
def State.SafeRun (s : State) (es : List Event) : Prop := ∀ f, runEvents es s ≠ .fault f

/-- The state a fault leaves. -/
def Fault.after : Fault → State
  | .illegalInstruction _ _ t => t
  | .fetchOutOfRange _ t => t
  | .memoryTransactionError _ t => t

/-- The next state of an outcome, if it is one. -/
def nextOf : Host.Outcome State Fault Refusal → Option State
  | .next t => some t
  | .fault _ => none
  | .refused _ => none

/-- The fault of an outcome, if it is one. -/
def faultOf : Host.Outcome State Fault Refusal → Option Fault
  | .next _ => none
  | .fault f => some f
  | .refused _ => none

/-- The refusal of an outcome, if it is one. -/
def refusalOf : Host.Outcome State Fault Refusal → Option Refusal
  | .next _ => none
  | .fault _ => none
  | .refused r => some r

end Sys2Proof.Machine
end

