-- ==== Sys2Proof/Certificates/Slice0/Obligations.lean ====
section
/-! DEFINITION. The statements for the provers, with the vocabulary they are written in. The vocabulary says
what the spec says in its own terms (integers, addresses, cells), not by the model's functions, where the
two could differ. -/

namespace Sys2Proof.Claims

open Sys2Proof.Machine

/-! ### Vocabulary -/

/-- The bytes `bs` stand in readable memory from address `a` on. -/
def BytesAt (s : State) : Word → List Byte → Prop
  | _, [] => True
  | a, b :: bs => s.memRead1 a = .done b ∧ BytesAt s (a + 1) bs

/-- The 220 opcode byte values of spec/30_encoding.md R92, as its list of ranges. -/
def IllegalOpcode (op : Byte) : Prop :=
  (0x01 ≤ op.toNat ∧ op.toNat ≤ 0x80) ∨ op.toNat = 0x82 ∨ op.toNat = 0x83 ∨
  (0x87 ≤ op.toNat ∧ op.toNat ≤ 0x89) ∨ op.toNat = 0x8B ∨ op.toNat = 0x8F ∨ op.toNat = 0x90 ∨
  op.toNat = 0x92 ∨ op.toNat = 0x93 ∨ op.toNat = 0x97 ∨ (0x9A ≤ op.toNat ∧ op.toNat ≤ 0x9C) ∨
  op.toNat = 0x9E ∨ op.toNat = 0x9F ∨ op.toNat = 0xA3 ∨ op.toNat = 0xA7 ∨ op.toNat = 0xAB ∨
  op.toNat = 0xAF ∨ op.toNat = 0xB0 ∨ op.toNat = 0xB2 ∨ op.toNat = 0xB3 ∨ op.toNat = 0xB7 ∨
  op.toNat = 0xB8 ∨ op.toNat = 0xBA ∨ op.toNat = 0xBB ∨ op.toNat = 0xBF ∨ 0xC0 ≤ op.toNat

/-- The little-endian 16-bit value stored at the integer address `p`, both bytes readable
(spec/20_memory.md R53: `p + 1` in the full address space). -/
def PointerAt (s : State) (p : Nat) (w : Word) : Prop :=
  ∃ lo hi, s.memRead1 (BitVec.ofNat 16 p) = .done lo ∧ s.memRead1 (BitVec.ofNat 16 (p + 1)) = .done hi ∧
    w.toNat = hi.toNat * 256 + lo.toNat

/-- Reading the 16-bit value at `p` fails, first at address `a` (R53: low byte first). -/
def PointerFails (s : State) (p : Nat) (a : Word) : Prop :=
  s.memRead1 (BitVec.ofNat 16 p) = .raised a ∨
  ∃ lo, s.memRead1 (BitVec.ofNat 16 p) = .done lo ∧ s.memRead1 (BitVec.ofNat 16 (p + 1)) = .raised a

/-- The zero-page indexed address on integers (spec/40_addressing_modes.md R103, R104). -/
def ZpIndexed (s : State) (base : Nat) (index : Byte) (ea : Word) : Prop :=
  (s.cfg.zpIndexPolicy = .rawAdd → ea.toNat = base + index.toNat) ∧
  (s.cfg.zpIndexPolicy = .strictWrap → ea.toNat = (base + index.toNat) % 256)

/-- `ea` is the effective address of `mode` with the raw operand `n`, on integers (R102 to R109). -/
def EffectiveAddress (s : State) (mode : AddressingMode) (n : Nat) (ea : Word) : Prop :=
  match mode with
  | .immediate => False
  | .zeroPage => ea.toNat = n
  | .zeroPageX => ZpIndexed s n s.x ea
  | .zeroPageY => ZpIndexed s n s.y ea
  | .absolute => ea.toNat = n
  | .absoluteX => ea.toNat = (n + s.x.toNat) % 65536
  | .absoluteY => ea.toNat = (n + s.y.toNat) % 65536
  | .indirectX => PointerAt s ((n + s.x.toNat) % 256) ea
  | .indirectY => ∃ base, PointerAt s n base ∧ ea.toNat = (base.toNat + s.y.toNat) % 65536
  | .implied => False

/-- The pointer read of `mode` fails at address `a` (R100, R108, R109). -/
def PointerReadFails (s : State) (mode : AddressingMode) (n : Nat) (a : Word) : Prop :=
  match mode with
  | .indirectX => PointerFails s ((n + s.x.toNat) % 256) a
  | .indirectY => PointerFails s n a
  | _ => False

/-- The outcome of an instruction whose access fails at `a`: a fault that leaves everything but `status`
(spec/41_loads.md R121, spec/42_stores.md R151, spec/45_block_execution.md R203). -/
def memoryFault (s : State) (a : Word) : Host.Outcome State Fault Refusal :=
  .fault (.memoryTransactionError a { s with status := .fault (.memoryTransactionError a) })

/-- The low byte of an operand word, by its value. -/
def lowOf (w : Word) : Byte := BitVec.ofNat 8 (w.toNat % 256)

/-- The high byte of an operand word, by its value. -/
def highOf (w : Word) : Byte := BitVec.ofNat 8 (w.toNat / 256)

/-- What a load with a memory mode does: it is encoded in `bytes`, and for every state the byte at the
effective address goes into the destination and `pc` advances, and nothing else changes; if an access
fails, the instruction faults. -/
def LoadRule (i : Instr) (bytes : List Byte) (mode : AddressingMode) (n : Nat) (len : Word)
    (dest : State → Byte → State) : Prop :=
  encode i = bytes ∧ ∀ s : State,
    (∀ ea v, EffectiveAddress s mode n ea → s.memRead1 ea = .done v →
      exec i s = .next { dest s v with pc := s.pc + len }) ∧
    (∀ ea a, EffectiveAddress s mode n ea → s.memRead1 ea = .raised a → exec i s = memoryFault s a) ∧
    (∀ a, PointerReadFails s mode n a → exec i s = memoryFault s a)

/-- What a store does: it is encoded in `bytes`, and for every state with canonical memory a RAM effective
address receives the byte, which every address of that cell then reads, every other address reads as
before, and only memory and `pc` change; a write to `Rom(_, Ignore)` only advances `pc`; any failing
access faults. -/
def StoreRule (i : Instr) (bytes : List Byte) (mode : AddressingMode) (n : Nat) (len : Word)
    (src : State → Byte) : Prop :=
  encode i = bytes ∧ ∀ s : State, s.Inv →
    (∀ ea c, EffectiveAddress s mode n ea → s.entry ea = .ram c →
      ∃ m, exec i s = .next { s with mem := m, pc := s.pc + len } ∧
        ∀ b, ({ s with mem := m } : State).memRead1 b =
          if (s.entry b).readCell? = some c then .done (src s) else s.memRead1 b) ∧
    (∀ ea c, EffectiveAddress s mode n ea → s.entry ea = .rom c .ignore →
      exec i s = .next { s with pc := s.pc + len }) ∧
    (∀ ea c, EffectiveAddress s mode n ea → s.entry ea = .rom c .reject ∨ s.entry ea = .unmapped →
      exec i s = memoryFault s ea) ∧
    (∀ a, PointerReadFails s mode n a → exec i s = memoryFault s a)

/-- `acc <- v`. -/
def toAcc (s : State) (v : Byte) : State := { s with acc := v }
/-- `x <- v`. -/
def toX (s : State) (v : Byte) : State := { s with x := v }
/-- `y <- v`. -/
def toY (s : State) (v : Byte) : State := { s with y := v }

/-- Descriptors that decode one after another from `a` on, none of them BREAK, ending at `a'`. -/
inductive DecodesTo (s : State) : Word → List Descriptor → Word → Prop where
  | nil (a : Word) : DecodesTo s a [] a
  | cons {a a' : Word} {d : Descriptor} {ds : List Descriptor} :
      a ≤ 0xFFF9 → s.decodeAt a = .done d → d.instr ≠ .brk →
      DecodesTo s (a + BitVec.ofNat 16 d.len) ds a' → DecodesTo s a (d :: ds) a'

/-- Executing the descriptors in order leads from one state to another, every one completing with
`status = Running`. -/
inductive RunsTo : State → List Descriptor → State → Prop where
  | nil (s : State) : RunsTo s [] s
  | cons {s u t : State} {d : Descriptor} {ds : List Descriptor} :
      exec d.instr s = .next u → u.status = .running → RunsTo u ds t → RunsTo s (d :: ds) t

/-- The vector addresses as spec/60_exceptions.md R235 tabulates them. -/
def vectorAddress : IrqKind → Nat
  | .nmi => 0xFFFA
  | .reset => 0xFFFC
  | .irq => 0xFFFE

/-- `STACK_BASE` as a number (spec/00_scope.md R8). -/
def stackBase (s : State) : Nat :=
  match s.cfg.stackBase with
  | .zeroPage => 0
  | .pageOne => 256

/-- The address of the first push: `(STACK_BASE + sp) mod 65536` (R237). -/
def firstPush (s : State) : Word := BitVec.ofNat 16 (stackBase s + s.sp.toNat)

/-- The address of the second push: `(STACK_BASE + ((sp - 1) mod 256)) mod 65536` (R237). -/
def secondPush (s : State) : Word := BitVec.ofNat 16 (stackBase s + (s.sp.toNat + 255) % 256)

/-- `P[15:8]` of the `pc` that is pushed. -/
def pushedHi (s : State) : Byte := BitVec.ofNat 8 (s.pc.toNat / 256)

/-- `P[7:0]` of the `pc` that is pushed. -/
def pushedLo (s : State) : Byte := BitVec.ofNat 8 (s.pc.toNat % 256)

/-- `s` under another `CPU_KIND`. -/
def withCpuKind (k : CpuKind) (s : State) : State := { s with cfg := { s.cfg with cpuKind := k } }

/-- `s` with another `sr`. -/
def withSr (v : Byte) (s : State) : State := { s with sr := v }

/-- The same fault, of the same kind, address and byte, with the state it leaves changed by `g`. -/
def sameFault (g : State → State) : Fault → Fault
  | .illegalInstruction a op t => .illegalInstruction a op (g t)
  | .fetchOutOfRange a t => .fetchOutOfRange a (g t)
  | .memoryTransactionError a t => .memoryTransactionError a (g t)

/-- `s` under another `MAX_INSNS`. -/
def capped (n : Nat) (s : State) : State := { s with cfg := { s.cfg with maxInsns := n } }

end Sys2Proof.Claims

open Sys2Proof Sys2Proof.Machine Sys2Proof.Claims

/-! ### Encoding and decoding -/

/-- Decoding the encoding of any instruction, whatever follows it, gives it back with every operand value
and consumes exactly its bytes (spec/30_encoding.md sections 1 to 4). -/
def Obligations.DecodeAfterEncodeGivesTheInstruction : Prop :=
  ∀ (i : Instr) (rest : List Byte), decodeBytes (encode i ++ rest) = .done (i, rest)

/-- Whatever byte list decodes is the encoding of what it decodes to, so no two encodings share an
instruction (spec/30_encoding.md sections 1 to 5). -/
def Obligations.EncodeAfterDecodeGivesTheBytes : Prop :=
  ∀ (bs rest : List Byte) (i : Instr), decodeBytes bs = .done (i, rest) → bs = encode i ++ rest

/-- Words written out from R81 and R89 decode to the instruction they stand for. -/
def Obligations.WrittenOutWordsDecode : Prop :=
  decodeBytes [0b10101001, 0x10] = .done (.ldaImm 0x10, []) ∧
  decodeBytes [0b10110110, 0x10] = .done (.ldxZpY 0x10, []) ∧
  decodeBytes [0b10111110, 0xFF, 0x7F] = .done (.ldxAbsY 0x7FFF, []) ∧
  decodeBytes [0b10111100, 0x34, 0x12] = .done (.ldyAbsX 0x1234, []) ∧
  decodeBytes [0b10010001, 0x40] = .done (.staIndY 0x40, []) ∧
  decodeBytes [0b10010110, 0x80] = .done (.stxZpY 0x80, []) ∧
  decodeBytes [0b10001100, 0x00, 0x80] = .done (.styAbs 0x8000, []) ∧
  decodeBytes [0b10001010] = .done (.txa, []) ∧
  decodeBytes [0b00000000] = .done (.brk, []) ∧
  decodeBytes [0xEA] = .raised (.illegalOpcode 0xEA)

/-- R92, R98: the decoder raises `IllegalInstruction` exactly when the opcode byte is one of the 220
values, and reports the address and that byte. Which bytes are opcodes is the spec's general knowledge
(notes/assumptions/16.md). -/
def Obligations.IllegalOpcodesAreReported : Prop :=
  ∀ (s : State) (a : Word) (b : Byte),
    (s.memRead1 a = .done b → IllegalOpcode b → s.decodeAt a = .raised (.illegalInstruction a b)) ∧
    (∀ a', s.decodeAt a = .raised (.illegalInstruction a' b) →
      a' = a ∧ s.memRead1 a = .done b ∧ IllegalOpcode b)

/-- R85, R88: the decoder answers an instruction at `a` exactly when its bytes stand there, readable and at
or below `LAST_FETCH_ADDR`. -/
def Obligations.DecoderReadsTheBytesAtTheAddress : Prop :=
  ∀ (s : State) (a : Word) (d : Descriptor), a ≤ 0xFFF9 →
    (s.decodeAt a = .done d ↔
      d.addr = a ∧ BytesAt s a (encode d.instr) ∧ a.toNat + d.instr.len ≤ 0xFFFA)

/-- R194: an instruction whose last byte would lie above `LAST_FETCH_ADDR` is refused, whatever its
operand bytes are and whether or not they can be read; an illegal opcode there is reported as illegal.
The spec's own decision D10. -/
def Obligations.StraddlingInstructionIsRefused : Prop :=
  ∀ (s : State) (a : Word), a ≤ 0xFFF9 →
    (∀ i : Instr, s.memRead1 a = .done i.opcode → 0xFFF9 < a.toNat + (i.len - 1) →
      s.decodeAt a = .raised (.fetchOutOfRange a)) ∧
    (∀ b, s.memRead1 a = .done b → IllegalOpcode b → s.decodeAt a = .raised (.illegalInstruction a b))

/-- R94: decoding and building depend on memory, the memory map and `MAX_INSNS` only: no register, flag,
pending bit, `CPU_KIND` or other parameter changes what is decoded. -/
def Obligations.DecodingReadsMemoryOnly : Prop :=
  ∀ (s t : State), s.mem = t.mem → s.cfg.memMap = t.cfg.memMap →
    (∀ a, s.decodeAt a = t.decodeAt a) ∧
    (s.cfg.maxInsns = t.cfg.maxInsns → ∀ a, s.buildBlock a = t.buildBlock a)

/-! ### Blocks and steps -/

/-- R197: a built block holds 1 to `MAX_INSNS` contiguous instructions from `start_pc`, only the last
can be BREAK, `terminal = Exit` exactly then, each instruction is what memory decodes to at its address,
and a block that does not end in BREAK holds exactly `MAX_INSNS` of them. The spec derives R197 from
R192. -/
def Obligations.BuiltBlocksAreWellFormed : Prop :=
  ∀ (s : State) (a : Word) (b : Block), 1 ≤ s.cfg.maxInsns → s.buildBlock a = .done b →
    b.startPc = a ∧ b.wellFormed s.cfg.maxInsns = true ∧
    (∀ d ∈ b.instructions, s.decodeAt d.addr = .done d) ∧
    ((∀ d ∈ b.instructions, d.instr ≠ .brk) → b.instructions.length = s.cfg.maxInsns)

/-- R192, R195 (a), (b): after any number of instructions that decode and are not BREAK, fewer than
`MAX_INSNS`, a BREAK at the next address ends the block, with `terminal = Exit` even when it is the
`MAX_INSNS`-th; and `MAX_INSNS` instructions without BREAK are a block, with `terminal =
TooManyInstructions`. Nothing is asked of any byte after the last instruction, which may be illegal,
unreadable or above `LAST_FETCH_ADDR`: those bytes are not read. The order of the two tests is the spec's
own decision D11. -/
def Obligations.BlocksStopAtBreakOrCap : Prop :=
  ∀ (s : State) (a a' : Word) (ds : List Descriptor), DecodesTo s a ds a' →
    (∀ d, ds.length < s.cfg.maxInsns → a' ≤ 0xFFF9 → s.decodeAt a' = .done d → d.instr = .brk →
      s.buildBlock a = .done ⟨a, ds ++ [d], .exit⟩) ∧
    (1 ≤ s.cfg.maxInsns → ds.length = s.cfg.maxInsns →
      s.buildBlock a = .done ⟨a, ds, .tooManyInstructions⟩)

/-- R193, R198, R199: after any number of instructions that decode and are not BREAK, an address above
`LAST_FETCH_ADDR` or a decode error ends the step in that fault, and none of the block executes: the
state is the one after the boundary check, but for `status`. The test on the first instruction, a
failing fetch read and the Fault status are the spec's own decisions D10, D18, D17. -/
def Obligations.BuildErrorExecutesNothing : Prop :=
  ∀ (s b : State) (ds : List Descriptor) (a : Word) (e : FaultCause),
    s.status = .running → b = s.boundaryCheck → DecodesTo b b.pc ds a →
    ds.length < s.cfg.maxInsns →
    (0xFFF9 < a ∧ e = .fetchOutOfRange a) ∨ (a ≤ 0xFFF9 ∧ b.decodeAt a = .raised e) →
    (∀ a' op, e = .illegalInstruction a' op →
      step s = .fault (.illegalInstruction a' op { b with status := .fault e })) ∧
    (∀ a', e = .fetchOutOfRange a' →
      step s = .fault (.fetchOutOfRange a' { b with status := .fault e })) ∧
    (∀ a', e = .memoryTransactionError a' →
      step s = .fault (.memoryTransactionError a' { b with status := .fault e }))

/-- A step with `MAX_INSNS = 1`: when the bytes at the program counter after the boundary check decode to
`i`, the step is `exec i` of that state. -/
def Obligations.StepRunsTheDecodedInstruction : Prop :=
  ∀ (s b : State) (i : Instr) (bs : List Byte),
    s.status = .running → s.cfg.maxInsns = 1 → b = s.boundaryCheck →
    decodeBytes bs = .done (i, []) → BytesAt b b.pc bs → b.pc.toNat + bs.length ≤ 0xFFFA →
    step s = exec i b

/-- R201 to R204: the block built after the boundary check is run in order from the state after it; at each
instruction reached, `pc` is its address; the first instruction that faults ends the step in its fault,
the earlier ones having completed; BREAK ends it halted; the last one ends it with the state it leaves. -/
def Obligations.BlockRunsInOrder : Prop :=
  ∀ (s b u : State) (blk : Block) (ds₁ ds₂ : List Descriptor) (d : Descriptor),
    s.status = .running → 1 ≤ s.cfg.maxInsns → b = s.boundaryCheck →
    b.buildBlock b.pc = .done blk → blk.instructions = ds₁ ++ d :: ds₂ → RunsTo b ds₁ u →
    u.pc = d.addr ∧
    (∀ f, exec d.instr u = .fault f → step s = .fault f) ∧
    (∀ t r, exec d.instr u = .next t → t.status = .halted r → ds₂ = [] ∧ step s = .next t) ∧
    (∀ t, exec d.instr u = .next t → ds₂ = [] → step s = .next t)

/-- R13, R205: a block step of a running core with `MAX_INSNS >= 1` always ends, and in exactly one of
the three outcomes: it continues, it halts, or it faults (it is never refused). The three outcomes are
the spec's own decision D17. -/
def Obligations.BlockStepEndsInOneOfThreeOutcomes : Prop :=
  ∀ s : State, s.status = .running → 1 ≤ s.cfg.maxInsns →
    (∃ t, step s = .next t ∧ (t.status = .running ∨ ∃ r, t.status = .halted r)) ∨
    (∃ f, step s = .fault f)

/-- R13, R38: a step of a running core that faults leaves a state whose `status` is that fault. The
status is the spec's own decision D17; that the fault carries the state is the model's choice
(notes/assumptions/6.md). -/
def Obligations.FaultsRecordTheirStatus : Prop :=
  ∀ (s : State) (f : Fault), s.status = .running → step s = .fault f →
    (∀ a op t, f = .illegalInstruction a op t → t.status = .fault (.illegalInstruction a op)) ∧
    (∀ a t, f = .fetchOutOfRange a t → t.status = .fault (.fetchOutOfRange a)) ∧
    (∀ a t, f = .memoryTransactionError a t → t.status = .fault (.memoryTransactionError a))

/-- R38, R233: every status but `Running` is absorbing: no step, whatever is pending. That a halted core
is refused and a faulted one answers its fault again is the model's choice (notes/assumptions/7.md).
That `reset` does not revive the core is the spec's own decision (D22, D28). -/
def Obligations.NotRunningHasNoStep : Prop :=
  ∀ (s : State) (k : IrqKind),
    (∀ r, s.status = .halted r →
      step s = .refused (.halted r) ∧ step (s.signal k) = .refused (.halted r) ∧
      step s.assertReset = .refused (.halted r)) ∧
    (∀ c, s.status = .fault c →
      step s = .fault (c.stop s) ∧ ∀ t, step (s.signal k) ≠ .next t ∧ step s.assertReset ≠ .next t)

/-- R22: an instruction that completes advances `pc` by its encoded length and by nothing else; BREAK
does not advance it; a failing one leaves it. That a failing one leaves it is the spec's own decision
D16. -/
def Obligations.PcAdvancesByTheEncodedLength : Prop :=
  ∀ (i : Instr) (s : State),
    (∀ t, exec i s = .next t →
      t.pc = if i = .brk then s.pc else s.pc + BitVec.ofNat 16 (encode i).length) ∧
    (∀ f, exec i s = .fault f → f.after.pc = s.pc)

/-- R23: a step that starts with `pc` above 0xFFF9, after the boundary check, does not go on; a step
that goes on never lowers `pc` (so it never wraps) and leaves it at or below 0xFFFA, at or below 0xFFF9
when it halts. From any state. The spec derives R23 from R22, R193, R194. -/
def Obligations.StepKeepsPcInRange : Prop :=
  ∀ s t : State, step s = .next t →
    s.boundaryCheck.pc ≤ 0xFFF9 ∧ s.boundaryCheck.pc ≤ t.pc ∧ t.pc ≤ 0xFFFA ∧
    (t.status ≠ .running → t.pc ≤ 0xFFF9)

/-- R4: the two CPU kinds behave alike: changing `CPU_KIND` changes no next state but for that field, no
fault but for that field of the state it leaves, and no refusal. The spec's own decision D32. -/
def Obligations.CpuKindHasNoEffect : Prop :=
  ∀ (s : State) (k : CpuKind),
    (∀ t, step s = .next t → step (withCpuKind k s) = .next (withCpuKind k t)) ∧
    (∀ f, step s = .fault f → step (withCpuKind k s) = .fault (sameFault (withCpuKind k) f)) ∧
    (∀ r, step s = .refused r → step (withCpuKind k s) = .refused r)

/-- R29: only bit 2 of `sr` is read: two states that differ in the other bits of `sr` step alike. Where one
goes on the other does, to the same state but for `sr` and for what is reported to the host (a shutdown
report contains `sr`); where one faults the other does, with the same kind, address and byte, leaving the
same state but for `sr`; where one is refused so is the other. -/
def Obligations.OnlyInterruptDisableIsRead : Prop :=
  ∀ (s : State) (v : Byte), v.getLsbD 2 = s.sr.getLsbD 2 →
    (∀ t, step s = .next t → ∃ o, step (withSr v s) = .next { withSr v t with outputs := o }) ∧
    (∀ f, step s = .fault f → step (withSr v s) = .fault (sameFault (withSr v) f)) ∧
    (∀ r, step s = .refused r → step (withSr v s) = .refused r)

/-- R206: with nothing pending, when no instruction of the block has changed the bytes of a later one
and the block step does not fault, the same instructions run one at a time under `MAX_INSNS = 1` reach
the same state. The spec derives R206 from R190 to R204. -/
def Obligations.BlockSizeDoesNotMatter : Prop :=
  ∀ (s t : State) (blk : Block),
    s.pending = ⟨false, false, false⟩ → s.buildBlock s.pc = .done blk →
    (∀ ds₁ d ds₂ u, blk.instructions = ds₁ ++ d :: ds₂ → RunsTo s ds₁ u →
      u.decodeAt d.addr = .done d) →
    step s = .next t →
    Host.Core.run Sys2Proof.core blk.instructions.length (capped 1 s) = .next (capped 1 t)

/-- R207 (and R185): without interrupts there is no loop: within 65530 steps a run with nothing pending
has reached BREAK, or its next step faults, and if that fault is `FetchOutOfRange` its address is above
0xFFF7 and at most 0xFFFA. The spec derives R207 from R193 and R195. -/
def Obligations.RunsWithoutInterruptsEnd : Prop :=
  ∀ s : State, s.status = .running → 1 ≤ s.cfg.maxInsns → s.pending = ⟨false, false, false⟩ →
    s.pc ≤ 0xFFFA →
    ∃ (n : Nat) (u : State), n ≤ 65530 ∧ Host.Core.run Sys2Proof.core n s = .next u ∧
      ((∃ r, u.status = .halted r) ∨
       (∃ f, step u = .fault f ∧ ∀ a t, f = .fetchOutOfRange a t → 0xFFF7 < a ∧ a ≤ 0xFFFA))

/-- R56: when every address can be read and written, no step of a running core ends in
`MemoryTransactionError`. -/
def Obligations.FullyMappedNeverMemoryFaults : Prop :=
  ∀ (s t : State) (a : Word), s.FullyMapped → s.status = .running →
    step s ≠ .fault (.memoryTransactionError a t)

/-! ### Memory -/

/-- Every agent's step keeps memory in its canonical form, whether it goes on or faults. -/
def Obligations.AgentStepsKeepMemoryCanonical : Prop :=
  ∀ (e : Event) (s : State), s.Inv →
    (∀ t, agentStep e s = .next t → t.Inv) ∧ (∀ f, agentStep e s = .fault f → f.after.Inv)

/-- R41: what the spec fixes at instantiation: `pending = {Reset}`, `status = Running`; and memory is in
its canonical form. The spec's own decision D21. -/
def Obligations.ResetState : Prop :=
  State.reset.pending = ⟨true, false, false⟩ ∧ State.reset.status = .running ∧ State.reset.Inv ∧
  State.reset.dueInterrupt = some .reset

/-- Canonical memories that store the same byte in every cell are equal data. -/
def Obligations.CanonicalMemoriesAreDeterminedByTheirBytes : Prop :=
  ∀ m n : Memory, m.wf = true → n.wf = true →
    (∀ k, k < 65536 → m.readCell k = n.readCell k) → m = n

/-- R52, R54: a byte read answers the stored byte of the cell or fails; a write to RAM is read back at
every address of its cell and leaves every other address alone; a write to `Rom(_, Ignore)` changes
nothing; a write to `Rom(_, Reject)` or `Unmapped` raises. That a rejected write raises is the spec's
own decision D30. -/
def Obligations.ByteReadsAndWrites : Prop :=
  ∀ (s : State) (a : Word) (v : Byte), s.Inv →
    (∀ c, s.entry a = .ram c ∨ (∃ w, s.entry a = .rom c w) →
      s.memRead1 a = .done (s.mem.readCell c.toNat)) ∧
    (s.entry a = .unmapped → s.memRead1 a = .raised a ∧ s.memWrite1 a v = .raised a) ∧
    (∀ c, s.entry a = .ram c → ∃ t, s.memWrite1 a v = .done t ∧ t = { s with mem := t.mem } ∧
      (∀ b, (s.entry b).readCell? = some c → t.memRead1 b = .done v) ∧
      (∀ b, (s.entry b).readCell? ≠ some c → t.memRead1 b = s.memRead1 b)) ∧
    (∀ c, s.entry a = .rom c .ignore → s.memWrite1 a v = .done s) ∧
    (∀ c, s.entry a = .rom c .reject → s.memWrite1 a v = .raised a)

/-- R53: a 16-bit read is two byte reads, low byte first, at `a` and at the next address of the full
space, and its value is `hi * 256 + lo`; if either fails, it fails with that byte's address. The order
and the place of the bytes are the spec's own decision D7. -/
def Obligations.WordReadsAreLittleEndian : Prop :=
  ∀ (s : State) (a : Word),
    (∀ w, s.memRead2 a = .done w ↔ PointerAt s a.toNat w) ∧
    (∀ e, s.memRead2 a = .raised e ↔ PointerFails s a.toNat e)

/-- R62: on the one platform the spec describes, 0x6000..0x7FFF is RAM and 0x8000..0xFFFF is ROM, each
address its own cell; every copy of the low RAM, of any address, size and stride below 0x6000, is backed
by the cells of the first. That the other addresses below 0x6000 are `Unmapped` is the model's choice
(notes/assumptions/18.md). -/
def Obligations.Mapper0MapFollowsTheSpec : Prop :=
  ∀ (low : LowRam) (w : OnWrite),
    (∀ a : Word, 0x6000 ≤ a.toNat → a.toNat ≤ 0x7FFF → MemMap.entry (.mapper0 low w) a = .ram a) ∧
    (∀ a : Word, 0x8000 ≤ a.toNat → MemMap.entry (.mapper0 low w) a = .rom a w) ∧
    (low.wellFormed = true →
      (∀ k j, k < low.copies → j < low.size →
        MemMap.entry (.mapper0 low w) (BitVec.ofNat 16 (low.first + k * low.stride + j)) =
          .ram (BitVec.ofNat 16 (low.first + j))) ∧
      (∀ a : Word, a.toNat < 0x6000 →
        (∀ k, k < low.copies →
          ¬ (low.first + k * low.stride ≤ a.toNat ∧ a.toNat < low.first + k * low.stride + low.size)) →
        MemMap.entry (.mapper0 low w) a = .unmapped))

/-- R54 on the platform of R62, whose vector table is in ROM: no step changes what an address from 0x8000
on reads as, neither one that goes on nor one that ends in a fault, whether a write to ROM is ignored or
rejected, whatever is stored or pushed. From any state. -/
def Obligations.Mapper0RomNeverChanges : Prop :=
  ∀ (low : LowRam) (w : OnWrite) (s : State),
    low.wellFormed = true → s.cfg.memMap = .mapper0 low w →
    (∀ t, step s = .next t → ∀ a : Word, 0x8000 ≤ a → t.memRead1 a = s.memRead1 a) ∧
    (∀ f, step s = .fault f → ∀ a : Word, 0x8000 ≤ a → f.after.memRead1 a = s.memRead1 a)

/-! ### Operands -/

/-- R101 to R110: the resolver answers the immediate byte, or the effective address the rules give on
integers, or the failing address of the pointer read, or nothing for `Implied`. The reductions modulo
256 and 65536 and the mode Implied are the spec's own decisions D4, D6, D1, the policy its D5. -/
def Obligations.ResolverFollowsTheRules : Prop :=
  ∀ (s : State) (mode : AddressingMode) (w : Word),
    (1 ≠ mode.operandBytes ∨ w.toNat < 256) →
    (mode = .immediate → resolve mode w s = .done (.imm (BitVec.ofNat 8 w.toNat))) ∧
    (mode = .implied → resolve mode w s = .done .none) ∧
    (∀ ea, resolve mode w s = .done (.addr ea) ↔ EffectiveAddress s mode w.toNat ea) ∧
    (∀ a, resolve mode w s = .raised a ↔ PointerReadFails s mode w.toNat a)

/-! ### Instructions -/

/-- R123 to R130: LDA in its eight modes. Opcode bytes and modes are the spec's general knowledge
(notes/assumptions/16.md). -/
def Obligations.LdaLoadsTheAccumulator : Prop :=
  ∀ (b : Byte) (w : Word),
    encode (.ldaImm b) = [0xA9, b] ∧
    (∀ s, exec (.ldaImm b) s = .next { s with acc := b, pc := s.pc + 2 }) ∧
    LoadRule (.ldaZp b) [0xA5, b] .zeroPage b.toNat 2 toAcc ∧
    LoadRule (.ldaZpX b) [0xB5, b] .zeroPageX b.toNat 2 toAcc ∧
    LoadRule (.ldaAbs w) [0xAD, lowOf w, highOf w] .absolute w.toNat 3 toAcc ∧
    LoadRule (.ldaAbsX w) [0xBD, lowOf w, highOf w] .absoluteX w.toNat 3 toAcc ∧
    LoadRule (.ldaAbsY w) [0xB9, lowOf w, highOf w] .absoluteY w.toNat 3 toAcc ∧
    LoadRule (.ldaIndX b) [0xA1, b] .indirectX b.toNat 2 toAcc ∧
    LoadRule (.ldaIndY b) [0xB1, b] .indirectY b.toNat 2 toAcc

/-- R131 to R135: LDX in its five modes. Opcode bytes and modes: notes/assumptions/16.md. -/
def Obligations.LdxLoadsX : Prop :=
  ∀ (b : Byte) (w : Word),
    encode (.ldxImm b) = [0xA2, b] ∧
    (∀ s, exec (.ldxImm b) s = .next { s with x := b, pc := s.pc + 2 }) ∧
    LoadRule (.ldxZp b) [0xA6, b] .zeroPage b.toNat 2 toX ∧
    LoadRule (.ldxZpY b) [0xB6, b] .zeroPageY b.toNat 2 toX ∧
    LoadRule (.ldxAbs w) [0xAE, lowOf w, highOf w] .absolute w.toNat 3 toX ∧
    LoadRule (.ldxAbsY w) [0xBE, lowOf w, highOf w] .absoluteY w.toNat 3 toX

/-- R136 to R140: LDY in its five modes. Opcode bytes and modes: notes/assumptions/16.md. -/
def Obligations.LdyLoadsY : Prop :=
  ∀ (b : Byte) (w : Word),
    encode (.ldyImm b) = [0xA0, b] ∧
    (∀ s, exec (.ldyImm b) s = .next { s with y := b, pc := s.pc + 2 }) ∧
    LoadRule (.ldyZp b) [0xA4, b] .zeroPage b.toNat 2 toY ∧
    LoadRule (.ldyZpX b) [0xB4, b] .zeroPageX b.toNat 2 toY ∧
    LoadRule (.ldyAbs w) [0xAC, lowOf w, highOf w] .absolute w.toNat 3 toY ∧
    LoadRule (.ldyAbsX w) [0xBC, lowOf w, highOf w] .absoluteX w.toNat 3 toY

/-- R152 to R158: STA in its seven modes. Opcode bytes and modes: notes/assumptions/16.md. -/
def Obligations.StaStoresTheAccumulator : Prop :=
  ∀ (b : Byte) (w : Word),
    StoreRule (.staZp b) [0x85, b] .zeroPage b.toNat 2 State.acc ∧
    StoreRule (.staZpX b) [0x95, b] .zeroPageX b.toNat 2 State.acc ∧
    StoreRule (.staAbs w) [0x8D, lowOf w, highOf w] .absolute w.toNat 3 State.acc ∧
    StoreRule (.staAbsX w) [0x9D, lowOf w, highOf w] .absoluteX w.toNat 3 State.acc ∧
    StoreRule (.staAbsY w) [0x99, lowOf w, highOf w] .absoluteY w.toNat 3 State.acc ∧
    StoreRule (.staIndX b) [0x81, b] .indirectX b.toNat 2 State.acc ∧
    StoreRule (.staIndY b) [0x91, b] .indirectY b.toNat 2 State.acc

/-- R159 to R161: STX in its three modes. Opcode bytes and modes: notes/assumptions/16.md. -/
def Obligations.StxStoresX : Prop :=
  ∀ (b : Byte) (w : Word),
    StoreRule (.stxZp b) [0x86, b] .zeroPage b.toNat 2 State.x ∧
    StoreRule (.stxZpY b) [0x96, b] .zeroPageY b.toNat 2 State.x ∧
    StoreRule (.stxAbs w) [0x8E, lowOf w, highOf w] .absolute w.toNat 3 State.x

/-- R162 to R164: STY in its three modes. Opcode bytes and modes: notes/assumptions/16.md. -/
def Obligations.StyStoresY : Prop :=
  ∀ (b : Byte) (w : Word),
    StoreRule (.styZp b) [0x84, b] .zeroPage b.toNat 2 State.y ∧
    StoreRule (.styZpX b) [0x94, b] .zeroPageX b.toNat 2 State.y ∧
    StoreRule (.styAbs w) [0x8C, lowOf w, highOf w] .absolute w.toNat 3 State.y

/-- R171 to R174: each transfer is one byte, copies one register and advances `pc` by 1; nothing else
changes. The direction is the spec's general knowledge (notes/assumptions/16.md). -/
def Obligations.TransfersCopyOneRegister : Prop :=
  (encode .tax = [0xAA] ∧ encode .tay = [0xA8] ∧ encode .txa = [0x8A] ∧ encode .tya = [0x98]) ∧
  ∀ s : State,
    exec .tax s = .next { s with x := s.acc, pc := s.pc + 1 } ∧
    exec .tay s = .next { s with y := s.acc, pc := s.pc + 1 } ∧
    exec .txa s = .next { s with acc := s.x, pc := s.pc + 1 } ∧
    exec .tya s = .next { s with acc := s.y, pc := s.pc + 1 }

/-- R175: TAX then TXA leaves `acc` and sets `x`; TXA then TAY copies `x` to both; a transfer done twice
has the register effect of one. The spec derives R175 from R171 to R174. -/
def Obligations.TransferSequences : Prop :=
  ∀ s t u : State,
    (exec .tax s = .next t → exec .txa t = .next u → u.acc = s.acc ∧ u.x = s.acc) ∧
    (exec .txa s = .next t → exec .tay t = .next u → u.acc = s.x ∧ u.y = s.x) ∧
    (∀ i ∈ [Instr.tax, .tay, .txa, .tya], exec i s = .next t → exec i t = .next u →
      u = { t with pc := s.pc + 2 })

/-- R181: under `HaltForDebug` BREAK, the one byte 0x00, sets `status` to `Halted(DebugHalt)` and writes
nothing else: `pc` stays at the BREAK byte. The core then takes no further step, whatever is signalled
(that it is refused is the model's choice, notes/assumptions/7.md). That `pc` stays is the spec's own
decision D13. -/
def Obligations.BreakHaltsForDebug : Prop :=
  encode .brk = [0x00] ∧
  ∀ s : State, s.cfg.onBreak = .haltForDebug →
    ∃ t, exec .brk s = .next t ∧ t = { s with status := .halted .debugHalt } ∧
      ∀ k u, step t ≠ .next u ∧ step (t.signal k) ≠ .next u

/-- R182: under `ShutdownWithDump` BREAK reports the six registers of this moment, sets `status` to
`Halted(Shutdown)` and writes nothing else. That the report is kept in `outputs` is the model's choice
(notes/assumptions/9.md). The report's content is the spec's own decision D14. -/
def Obligations.BreakShutsDownWithReport : Prop :=
  ∀ s : State, s.cfg.onBreak = .shutdownWithDump →
    exec .brk s = .next { s with
      status := .halted .shutdown
      outputs := s.outputs ++ [.report ⟨s.pc, s.sp, s.sr, s.x, s.y, s.acc⟩] }

/-- The frame by mnemonic (spec/10_state.md R20, R25 to R27): an instruction that completes changes `pc` and
the one register its mnemonic names, and no other; a load or transfer changes no memory; BREAK changes
`status` and `outputs` alone. -/
def Obligations.EachMnemonicWritesItsOwnRegister : Prop :=
  ∀ (i : Instr) (s t : State), exec i s = .next t →
    (i.mnemonic ∈ [Mnemonic.LDA, .TXA, .TYA] → t = { s with acc := t.acc, pc := t.pc }) ∧
    (i.mnemonic ∈ [Mnemonic.LDX, .TAX] → t = { s with x := t.x, pc := t.pc }) ∧
    (i.mnemonic ∈ [Mnemonic.LDY, .TAY] → t = { s with y := t.y, pc := t.pc }) ∧
    (i.mnemonic ∈ [Mnemonic.STA, .STX, .STY] → t = { s with mem := t.mem, pc := t.pc }) ∧
    (i.mnemonic = .BREAK → t = { s with status := t.status, outputs := t.outputs })

/-- The frame of stores (R150): every address outside the cell of the address the store resolves to reads as
before. -/
def Obligations.StoresLeaveOtherBytesAlone : Prop :=
  ∀ (i : Instr) (s t : State) (ea : Word), i.mnemonic ∈ [Mnemonic.STA, .STX, .STY] →
    resolve i.mode i.operand s = .done (.addr ea) → exec i s = .next t →
    ∀ b, ¬ s.SameCell ea b → t.memRead1 b = s.memRead1 b

/-! ### Whole-machine rules -/

/-- R31: no instruction writes any bit of `sr`, and no step does, whether it goes on, halts or faults;
nor does any change the configuration. The spec derives it for the six bits its source does not name. -/
def Obligations.NoStepWritesSr : Prop :=
  ∀ s : State,
    (∀ i t, exec i s = .next t → t.sr = s.sr ∧ t.cfg = s.cfg) ∧
    (∀ i f, exec i s = .fault f → f.after.sr = s.sr ∧ f.after.cfg = s.cfg) ∧
    (∀ t, step s = .next t → t.sr = s.sr ∧ t.cfg = s.cfg) ∧
    (∀ f, step s = .fault f → f.after.sr = s.sr ∧ f.after.cfg = s.cfg)

/-- R24, R33: a step changes `sp` and `pending` only by completing the delivery that is due: `sp` goes down by
2 modulo 256 and that one bit is cleared; no step sets a pending bit. -/
def Obligations.OnlyDeliveryMovesSpAndPending : Prop :=
  ∀ s t : State, step s = .next t →
    (t.sp = s.sp ∧ t.pending = s.pending) ∨
    (∃ k, s.dueInterrupt = some k ∧ s.pending.get k = true ∧
      t.sp.toNat = (s.sp.toNat + 254) % 256 ∧ t.pending.get k = false ∧
      ∀ j, j ≠ k → t.pending.get j = s.pending.get j)

/-! ### Interrupts -/

/-- R228 to R231: at a boundary Reset is delivered first, then Nmi, then Irq if bit 2 of `sr` is clear; else
nothing happens. -/
def Obligations.BoundaryCheckPriority : Prop :=
  ∀ s : State,
    (s.pending.reset = true → s.boundaryCheck = s.deliver .reset) ∧
    (s.pending.reset = false → s.pending.nmi = true → s.boundaryCheck = s.deliver .nmi) ∧
    (s.pending.reset = false → s.pending.nmi = false → s.pending.irq = true →
      s.sr.getLsbD 2 = false → s.boundaryCheck = s.deliver .irq) ∧
    (s.pending.reset = false → s.pending.nmi = false →
      (s.pending.irq = false ∨ s.sr.getLsbD 2 = true) → s.boundaryCheck = s)

/-- R236, R237, R238: a delivery whose accesses succeed pushes `pc[15:8]` at `STACK_BASE + sp` and `pc[7:0]`
at `STACK_BASE + ((sp - 1) mod 256)`, then loads `pc` from the vector as memory then stands, lowers `sp`
by 2 modulo 256 and clears the bit; nothing else is written. -/
def Obligations.DeliveryPushesAndVectors : Prop :=
  ∀ (s s₁ s₂ : State) (k : IrqKind) (target : Word),
    s.memWrite1 (firstPush s) (pushedHi s) = .done s₁ →
    s₁.memWrite1 (secondPush s) (pushedLo s) = .done s₂ →
    PointerAt s₂ (vectorAddress k) target →
    s.deliver k = { s with
      mem := s₂.mem
      pc := target
      sp := BitVec.ofNat 8 (s.sp.toNat + 254)
      pending := s.pending.set k false }

/-- The source's test property (R237): after a delivery whose two push addresses are RAM of different cells,
and whose vector bytes are in neither, the pushed bytes are read back at `[old_SP]` and `[old_SP-1]`,
`pc` is the vector's value, and every other cell reads as before. -/
def Obligations.DeliveredBytesReadBack : Prop :=
  ∀ (s : State) (k : IrqKind) (c₁ c₂ target : Word), s.Inv →
    s.entry (firstPush s) = .ram c₁ → s.entry (secondPush s) = .ram c₂ → c₁ ≠ c₂ →
    (∀ p, (p = vectorAddress k ∨ p = vectorAddress k + 1) →
      (s.entry (BitVec.ofNat 16 p)).readCell? ≠ some c₁ ∧
      (s.entry (BitVec.ofNat 16 p)).readCell? ≠ some c₂) →
    PointerAt s (vectorAddress k) target →
    (s.deliver k).memRead1 (firstPush s) = .done (pushedHi s) ∧
    (s.deliver k).memRead1 (secondPush s) = .done (pushedLo s) ∧
    (s.deliver k).pc = target ∧
    (∀ a, (s.entry a).readCell? ≠ some c₁ → (s.entry a).readCell? ≠ some c₂ →
      (s.deliver k).memRead1 a = s.memRead1 a)

/-- R240: a delivery one of whose accesses fails leaves every register and `pending` as they were, keeps
the pushes that completed, and reports the kind and the failing address. That this treatment is taken
and not U7's alternative, and that the diagnostic is kept in `outputs`, is the model's choice
(notes/assumptions/9.md, notes/assumptions/10.md). R240 is the spec's own decision D19. -/
def Obligations.AbortedDeliveryKeepsRegistersAndPending : Prop :=
  ∀ (s : State) (k : IrqKind) (a : Word),
    (s.memWrite1 (firstPush s) (pushedHi s) = .raised a →
      s.deliver k = { s with outputs := s.outputs ++ [.deliveryAborted k a] }) ∧
    (∀ s₁, s.memWrite1 (firstPush s) (pushedHi s) = .done s₁ →
      s₁.memWrite1 (secondPush s) (pushedLo s) = .raised a →
      s.deliver k = { s with
        mem := s₁.mem
        outputs := s.outputs ++ [.deliveryAborted k a] }) ∧
    (∀ s₁ s₂, s.memWrite1 (firstPush s) (pushedHi s) = .done s₁ →
      s₁.memWrite1 (secondPush s) (pushedLo s) = .done s₂ →
      PointerFails s₂ (vectorAddress k) a →
      s.deliver k = { s with
        mem := s₂.mem
        outputs := s.outputs ++ [.deliveryAborted k a] })

/-- R41, R241, R276: from every power-on state of a platform that meets the delivery premises, whatever
the registers hold, the boundary check completes the Reset delivery: `pc` is the reset vector's value,
`sp` is 2 lower, `pending.Reset` is clear, the other registers and pending bits are as they were, and
memory has changed at most in the two pushed bytes. What holds at power-on is the spec's own decision
D21. -/
def Obligations.PowerOnDeliversReset : Prop :=
  ∀ s : State, s.pending.reset = true → s.DeliveryPremises →
    ∃ m target, PointerAt { s with mem := m } 0xFFFC target ∧
      s.boundaryCheck = { s with
        mem := m
        pc := target
        sp := BitVec.ofNat 8 (s.sp.toNat + 254)
        pending := { s.pending with reset := false } } ∧
      ∀ a, ¬ s.SameCell (firstPush s) a → ¬ s.SameCell (secondPush s) a →
        ({ s with mem := m } : State).memRead1 a = s.memRead1 a

/-- R228, R234: with all three kinds pending, the step that delivers Reset leaves Nmi and Irq pending,
and Nmi is what the following boundary delivers, even though Irq is also pending and whatever `sr`
holds. That a block runs between the two deliveries is the spec's own decision D15. -/
def Obligations.ResetThenNmiAreDelivered : Prop :=
  ∀ s t : State, s.pending = ⟨true, true, true⟩ → s.DeliveryPremises → step s = .next t →
    t.pending = ⟨false, true, true⟩ ∧ t.boundaryCheck = t.deliver .nmi

/-- R225 (and R227): a signal sets its pending bit and changes nothing else, in any status; signalling
again changes nothing. -/
def Obligations.SignalsAreLatches : Prop :=
  ∀ (s : State) (k : IrqKind),
    (s.signal k).pending.get k = true ∧
    (∀ j, j ≠ k → (s.signal k).pending.get j = s.pending.get j) ∧
    s.signal k = { s with pending := (s.signal k).pending } ∧
    (s.signal k).signal k = s.signal k

/-! ### The host -/

/-- R40: the port shows the six registers at indices 0 to 5; a write stores the value as given into the
register of that index and nothing else, in any status; an index outside 0..5 is refused. What happens
with a value wider than the register is the model's choice and not stated here
(notes/assumptions/13.md). The index numbers are the spec's own decision D24. -/
def Obligations.DebugPortStoresRawValues : Prop :=
  ∀ (s : State) (i : Nat) (v : Word),
    (s.dbgRead 0 = some s.pc ∧ (s.dbgRead 1).map BitVec.toNat = some s.sp.toNat ∧
      (s.dbgRead 2).map BitVec.toNat = some s.sr.toNat ∧
      (s.dbgRead 3).map BitVec.toNat = some s.x.toNat ∧
      (s.dbgRead 4).map BitVec.toNat = some s.y.toNat ∧
      (s.dbgRead 5).map BitVec.toNat = some s.acc.toNat) ∧
    (i ≤ 5 → (i = 0 ∨ v.toNat < 256) →
      ∃ t, s.dbgWrite i v = .next t ∧ t.dbgRead i = some v ∧
        (∀ j, j ≠ i → t.dbgRead j = s.dbgRead j) ∧
        t = { s with pc := t.pc, sp := t.sp, sr := t.sr, x := t.x, y := t.y, acc := t.acc }) ∧
    (5 < i → s.dbgWrite i v = .refused (.debugIndex i) ∧ s.dbgRead i = none)
end

