-- ==== Sys2Proof/Laws/State.lean ====
section
/-! SUPPORT. One lemma per field and update of the state, so that no later proof unfolds a record update. -/

namespace Sys2Proof.Machine

variable (s : State)

@[simp] theorem State.advance_pc (n : Nat) : (s.advance n).pc = s.pc + BitVec.ofNat 16 n := rfl
@[simp] theorem State.advance_sp (n : Nat) : (s.advance n).sp = s.sp := rfl
@[simp] theorem State.advance_x (n : Nat) : (s.advance n).x = s.x := rfl
@[simp] theorem State.advance_y (n : Nat) : (s.advance n).y = s.y := rfl
@[simp] theorem State.advance_acc (n : Nat) : (s.advance n).acc = s.acc := rfl
@[simp] theorem State.advance_sr (n : Nat) : (s.advance n).sr = s.sr := rfl
@[simp] theorem State.advance_pending (n : Nat) : (s.advance n).pending = s.pending := rfl
@[simp] theorem State.advance_status (n : Nat) : (s.advance n).status = s.status := rfl
@[simp] theorem State.advance_mem (n : Nat) : (s.advance n).mem = s.mem := rfl
@[simp] theorem State.advance_cfg (n : Nat) : (s.advance n).cfg = s.cfg := rfl
@[simp] theorem State.advance_outputs (n : Nat) : (s.advance n).outputs = s.outputs := rfl

@[simp] theorem State.setStatus_pc (v : Status) : (s.setStatus v).pc = s.pc := rfl
@[simp] theorem State.setStatus_sp (v : Status) : (s.setStatus v).sp = s.sp := rfl
@[simp] theorem State.setStatus_x (v : Status) : (s.setStatus v).x = s.x := rfl
@[simp] theorem State.setStatus_y (v : Status) : (s.setStatus v).y = s.y := rfl
@[simp] theorem State.setStatus_acc (v : Status) : (s.setStatus v).acc = s.acc := rfl
@[simp] theorem State.setStatus_sr (v : Status) : (s.setStatus v).sr = s.sr := rfl
@[simp] theorem State.setStatus_pending (v : Status) : (s.setStatus v).pending = s.pending := rfl
@[simp] theorem State.setStatus_status (v : Status) : (s.setStatus v).status = v := rfl
@[simp] theorem State.setStatus_mem (v : Status) : (s.setStatus v).mem = s.mem := rfl
@[simp] theorem State.setStatus_cfg (v : Status) : (s.setStatus v).cfg = s.cfg := rfl
@[simp] theorem State.setStatus_outputs (v : Status) : (s.setStatus v).outputs = s.outputs := rfl

@[simp] theorem State.emit_pc (o : HostOutput) : (s.emit o).pc = s.pc := rfl
@[simp] theorem State.emit_sp (o : HostOutput) : (s.emit o).sp = s.sp := rfl
@[simp] theorem State.emit_x (o : HostOutput) : (s.emit o).x = s.x := rfl
@[simp] theorem State.emit_y (o : HostOutput) : (s.emit o).y = s.y := rfl
@[simp] theorem State.emit_acc (o : HostOutput) : (s.emit o).acc = s.acc := rfl
@[simp] theorem State.emit_sr (o : HostOutput) : (s.emit o).sr = s.sr := rfl
@[simp] theorem State.emit_pending (o : HostOutput) : (s.emit o).pending = s.pending := rfl
@[simp] theorem State.emit_status (o : HostOutput) : (s.emit o).status = s.status := rfl
@[simp] theorem State.emit_mem (o : HostOutput) : (s.emit o).mem = s.mem := rfl
@[simp] theorem State.emit_cfg (o : HostOutput) : (s.emit o).cfg = s.cfg := rfl
@[simp] theorem State.emit_outputs (o : HostOutput) : (s.emit o).outputs = s.outputs ++ [o] := rfl

@[simp] theorem State.signal_pc (k : IrqKind) : (s.signal k).pc = s.pc := rfl
@[simp] theorem State.signal_sp (k : IrqKind) : (s.signal k).sp = s.sp := rfl
@[simp] theorem State.signal_x (k : IrqKind) : (s.signal k).x = s.x := rfl
@[simp] theorem State.signal_y (k : IrqKind) : (s.signal k).y = s.y := rfl
@[simp] theorem State.signal_acc (k : IrqKind) : (s.signal k).acc = s.acc := rfl
@[simp] theorem State.signal_sr (k : IrqKind) : (s.signal k).sr = s.sr := rfl
@[simp] theorem State.signal_pending (k : IrqKind) : (s.signal k).pending = s.pending.set k true := rfl
@[simp] theorem State.signal_status (k : IrqKind) : (s.signal k).status = s.status := rfl
@[simp] theorem State.signal_mem (k : IrqKind) : (s.signal k).mem = s.mem := rfl
@[simp] theorem State.signal_cfg (k : IrqKind) : (s.signal k).cfg = s.cfg := rfl
@[simp] theorem State.signal_outputs (k : IrqKind) : (s.signal k).outputs = s.outputs := rfl

@[simp] theorem State.setReg_pc (r : Reg) (v : Byte) : (s.setReg r v).pc = s.pc := by cases r <;> rfl
@[simp] theorem State.setReg_sp (r : Reg) (v : Byte) : (s.setReg r v).sp = s.sp := by cases r <;> rfl
@[simp] theorem State.setReg_sr (r : Reg) (v : Byte) : (s.setReg r v).sr = s.sr := by cases r <;> rfl
@[simp] theorem State.setReg_pending (r : Reg) (v : Byte) : (s.setReg r v).pending = s.pending := by cases r <;> rfl
@[simp] theorem State.setReg_status (r : Reg) (v : Byte) : (s.setReg r v).status = s.status := by cases r <;> rfl
@[simp] theorem State.setReg_mem (r : Reg) (v : Byte) : (s.setReg r v).mem = s.mem := by cases r <;> rfl
@[simp] theorem State.setReg_cfg (r : Reg) (v : Byte) : (s.setReg r v).cfg = s.cfg := by cases r <;> rfl
@[simp] theorem State.setReg_outputs (r : Reg) (v : Byte) : (s.setReg r v).outputs = s.outputs := by cases r <;> rfl
@[simp] theorem State.setReg_x_x (v : Byte) : (s.setReg .x v).x = v := rfl
@[simp] theorem State.setReg_x_y (v : Byte) : (s.setReg .x v).y = s.y := rfl
@[simp] theorem State.setReg_x_acc (v : Byte) : (s.setReg .x v).acc = s.acc := rfl
@[simp] theorem State.setReg_y_x (v : Byte) : (s.setReg .y v).x = s.x := rfl
@[simp] theorem State.setReg_y_y (v : Byte) : (s.setReg .y v).y = v := rfl
@[simp] theorem State.setReg_y_acc (v : Byte) : (s.setReg .y v).acc = s.acc := rfl
@[simp] theorem State.setReg_acc_x (v : Byte) : (s.setReg .acc v).x = s.x := rfl
@[simp] theorem State.setReg_acc_y (v : Byte) : (s.setReg .acc v).y = s.y := rfl
@[simp] theorem State.setReg_acc_acc (v : Byte) : (s.setReg .acc v).acc = v := rfl

/-- Reading a register after writing one. -/
@[simp] theorem State.setReg_reg (r q : Reg) (v : Byte) :
    (s.setReg r v).reg q = if q = r then v else s.reg q := by cases r <;> cases q <;> rfl

@[simp] theorem State.reg_x : s.reg .x = s.x := rfl
@[simp] theorem State.reg_y : s.reg .y = s.y := rfl
@[simp] theorem State.reg_acc : s.reg .acc = s.acc := rfl

/-! The memory map is part of the configuration, so an update that keeps `cfg` keeps every entry. -/

@[simp] theorem State.advance_entry (n : Nat) (a : Word) : (s.advance n).entry a = s.entry a := rfl
@[simp] theorem State.advance_memRead1 (n : Nat) (a : Word) : (s.advance n).memRead1 a = s.memRead1 a := rfl
@[simp] theorem State.setStatus_entry (v : Status) (a : Word) : (s.setStatus v).entry a = s.entry a := rfl
@[simp] theorem State.setStatus_memRead1 (v : Status) (a : Word) : (s.setStatus v).memRead1 a = s.memRead1 a := rfl
@[simp] theorem State.emit_entry (o : HostOutput) (a : Word) : (s.emit o).entry a = s.entry a := rfl
@[simp] theorem State.emit_memRead1 (o : HostOutput) (a : Word) : (s.emit o).memRead1 a = s.memRead1 a := rfl
@[simp] theorem State.signal_entry (k : IrqKind) (a : Word) : (s.signal k).entry a = s.entry a := rfl
@[simp] theorem State.signal_memRead1 (k : IrqKind) (a : Word) : (s.signal k).memRead1 a = s.memRead1 a := rfl
@[simp] theorem State.setReg_entry (r : Reg) (v : Byte) (a : Word) : (s.setReg r v).entry a = s.entry a := by cases r <;> rfl
@[simp] theorem State.setReg_memRead1 (r : Reg) (v : Byte) (a : Word) : (s.setReg r v).memRead1 a = s.memRead1 a := by cases r <;> rfl

/-! Pending bits (spec/60_exceptions.md R226): a write of one bit changes no other. -/

variable (p : Pending)

@[simp] theorem Pending.get_set (k j : IrqKind) (b : Bool) :
    (p.set k b).get j = if j = k then b else p.get j := by cases k <;> cases j <;> rfl

@[simp] theorem Pending.set_set (k : IrqKind) (b c : Bool) : (p.set k b).set k c = p.set k c := by
  cases k <;> rfl

end Sys2Proof.Machine
end

