-- ==== Sys2Proof/Laws/Memory.lean ====
section
/-! SUPPORT. The laws of memory (spec/20_memory.md): read after write, the canonical form, what a 16-bit
read and a write can answer, and that a region list can stand for every `MEMMAP`. -/

namespace Sys2Proof

/-- The one-address region of a map entry. -/
def Region.single (a : Word) : MapEntry → Region
  | .ram c => ⟨a, a, .ram, c, 0⟩
  | .rom c w => ⟨a, a, .rom w, c, 0⟩
  | .unmapped => ⟨a, a, .unmapped, 0, 0⟩

theorem Region.single_covers {a b : Word} {e : MapEntry} :
    (Region.single a e).covers b = true ↔ b = a := by
  have h : (Region.single a e).covers b = (decide (a ≤ b) && decide (b ≤ a)) := by cases e <;> rfl
  rw [h, Bool.and_eq_true, decide_eq_true_eq, decide_eq_true_eq]
  exact ⟨fun h => BitVec.le_antisymm h.2 h.1, fun h => h ▸ ⟨BitVec.le_refl _, BitVec.le_refl _⟩⟩

theorem Region.single_entry (a : Word) (e : MapEntry) : (Region.single a e).entry a = e := by
  cases e <;> simp [Region.single, Region.entry, Region.cellOf]

/-- Every function from addresses to map entries is the function of some region list, so `MemMap` loses
nothing of R51 (notes/assumptions/5.md). -/
theorem MemMap.exists_entry_eq (f : Word → MapEntry) : ∃ m : MemMap, ∀ a, MemMap.entry m a = f a := by
  have hlist : ∀ (l : List Word) (a : Word), a ∈ l →
      MemMap.entry (l.map fun b => Region.single b (f b)) a = f a := by
    intro l a ha
    induction l with
    | nil => cases ha
    | cons b l ih =>
      simp only [List.map_cons, MemMap.entry]
      split
      · next hc => obtain rfl := Region.single_covers.1 hc; exact Region.single_entry ..
      · next hc =>
        refine ih ((List.mem_cons.1 ha).resolve_left ?_)
        rintro rfl
        exact hc (Region.single_covers.2 rfl)
  refine ⟨_, fun a => hlist ((List.range 65536).map (BitVec.ofNat 16)) a ?_⟩
  exact List.mem_map.2 ⟨a.toNat, List.mem_range.2 a.isLt, by simp⟩

namespace Machine

/-! ### Cells -/

theorem Memory.readCell_writeCell_other (m : Memory) {j k : Nat} (v : Byte) (h : k ≠ j) :
    (m.writeCell j v).readCell k = m.readCell k := by
  induction m with
  | nil => simp only [writeCell]; split <;> simp [readCell, Ne.symm h]
  | cons e m ih =>
    obtain ⟨i, w⟩ := e
    simp only [writeCell]
    split_ifs with h1 h2 h3 h4
    · rfl
    · simp [readCell, Ne.symm h]
    · simp [readCell, ← h3, Ne.symm h]
    · simp [readCell, ← h3, Ne.symm h]
    · simp only [readCell, ih]

theorem Memory.wf_cons {k : Nat} {v : Byte} {m : Memory} :
    Memory.wf ((k, v) :: m) = true ↔
      k < 65536 ∧ v ≠ unlistedByte ∧ (∀ e ∈ m, k < e.1) ∧ Memory.wf m = true := by
  simp [Memory.wf, and_assoc]

/-- A cell below every listed one reads as unlisted. -/
theorem Memory.readCell_of_lt {m : Memory} {j : Nat} (h : ∀ e ∈ m, j < e.1) :
    m.readCell j = unlistedByte := by
  induction m with
  | nil => rfl
  | cons e m ih =>
    obtain ⟨k, w⟩ := e
    have hk : j < k := h _ (List.mem_cons_self ..)
    simp only [readCell, if_neg (Nat.ne_of_gt hk)]
    exact ih fun e he => h e (List.mem_cons_of_mem _ he)

theorem Memory.readCell_writeCell_same {m : Memory} (hm : m.wf = true) (j : Nat) (v : Byte) :
    (m.writeCell j v).readCell j = v := by
  induction m with
  | nil => simp only [writeCell]; split <;> simp_all [readCell]
  | cons e m ih =>
    obtain ⟨k, w⟩ := e
    obtain ⟨hk, hw, hall, hwf⟩ := wf_cons.1 hm
    simp only [writeCell]
    split_ifs with h1 h2 h3 h4
    · subst h2
      refine readCell_of_lt fun e he => ?_
      obtain rfl | he := List.mem_cons.1 he
      · exact h1
      · exact Nat.lt_trans h1 (hall e he)
    · simp [readCell]
    · subst h3 h4; exact readCell_of_lt hall
    · simp [readCell]
    · simp only [readCell, if_neg (Ne.symm h3)]; exact ih hwf

/-- The cells listed after a write are the old ones and the written one. -/
theorem Memory.mem_writeCell {m : Memory} {j : Nat} {v : Byte} {e : Host.Cell}
    (h : e ∈ m.writeCell j v) : e ∈ m ∨ e = (j, v) := by
  induction m with
  | nil => simp only [writeCell] at h; split at h <;> simp_all
  | cons a m ih =>
    obtain ⟨k, w⟩ := a
    simp only [writeCell] at h
    split_ifs at h with h1 h2 h3 h4
    · exact .inl h
    · rcases List.mem_cons.1 h with h | h
      · exact .inr h
      · exact .inl h
    · exact .inl (List.mem_cons_of_mem _ h)
    · rcases List.mem_cons.1 h with h | h
      · exact .inr h
      · exact .inl (List.mem_cons_of_mem _ h)
    · rcases List.mem_cons.1 h with h | h
      · exact .inl (h ▸ List.mem_cons_self ..)
      · exact (ih h).imp_left (List.mem_cons_of_mem _)

/-- Writing a cell keeps the canonical form. -/
theorem Memory.wf_writeCell {m : Memory} (hm : m.wf = true) {j : Nat} (hj : j < 65536) (v : Byte) :
    (m.writeCell j v).wf = true := by
  induction m with
  | nil => simp only [writeCell]; split <;> simp_all [wf]
  | cons a m ih =>
    obtain ⟨k, w⟩ := a
    obtain ⟨hk, hw, hall, hwf⟩ := wf_cons.1 hm
    simp only [writeCell]
    split_ifs with h1 h2 h3 h4
    · exact hm
    · refine wf_cons.2 ⟨hj, h2, fun e he => ?_, hm⟩
      obtain rfl | he := List.mem_cons.1 he
      · exact h1
      · exact Nat.lt_trans h1 (hall e he)
    · exact hwf
    · exact wf_cons.2 ⟨hj, h4, h3 ▸ hall, hwf⟩
    · refine wf_cons.2 ⟨hk, hw, fun e he => ?_, ih hwf⟩
      obtain he | rfl := mem_writeCell he
      · exact hall e he
      · show k < j; omega

/-- Writing a cell of a 16-bit name keeps the canonical form. -/
theorem Memory.wf_writeCell_word {m : Memory} (hm : m.wf = true) (c : Word) (v : Byte) :
    (m.writeCell c.toNat v).wf = true := wf_writeCell hm c.isLt v

/-! ### Accesses -/

/-- A byte read answers the stored byte of the cell behind the address, or fails with that address. -/
theorem State.memRead1_done_iff {s : State} {a : Word} {v : Byte} :
    s.memRead1 a = .done v ↔ ∃ c, (s.entry a).readCell? = some c ∧ s.mem.readCell c.toNat = v := by
  unfold State.memRead1
  cases (s.entry a).readCell? <;> simp

theorem State.memRead1_raised_iff {s : State} {a e : Word} :
    s.memRead1 a = .raised e ↔ s.entry a = .unmapped ∧ e = a := by
  unfold State.memRead1
  cases h : s.entry a <;> simp [MapEntry.readCell?, eq_comm]

/-- A byte read depends on the map and the memory only. -/
theorem State.memRead1_congr {s t : State} (hm : s.mem = t.mem) (hc : s.cfg.memMap = t.cfg.memMap)
    (a : Word) : s.memRead1 a = t.memRead1 a := by
  unfold State.memRead1 State.entry
  rw [hm, hc]

theorem State.memRead2_congr {s t : State} (hm : s.mem = t.mem) (hc : s.cfg.memMap = t.cfg.memMap)
    (a : Word) : s.memRead2 a = t.memRead2 a := by
  unfold State.memRead2
  rw [memRead1_congr hm hc, memRead1_congr hm hc]

/-- Everything a byte write can answer (R54). -/
theorem State.memWrite1_cases (s : State) (a : Word) (v : Byte) :
    (∃ c, s.entry a = .ram c ∧
      s.memWrite1 a v = .done { s with mem := s.mem.writeCell c.toNat v }) ∨
    (∃ c, s.entry a = .rom c .ignore ∧ s.memWrite1 a v = .done s) ∨
    (¬ s.Writable a ∧ s.memWrite1 a v = .raised a) := by
  unfold State.memWrite1 State.Writable
  cases h : s.entry a with
  | ram c => exact .inl ⟨c, rfl, rfl⟩
  | rom c w => cases w <;> simp
  | unmapped => simp

/-- A write that completes changes memory and nothing else, and keeps the canonical form. -/
theorem State.memWrite1_done {s t : State} {a : Word} {v : Byte} (h : s.memWrite1 a v = .done t) :
    t = { s with mem := t.mem } ∧ (s.mem.wf = true → t.mem.wf = true) := by
  obtain ⟨c, -, hw⟩ | ⟨c, -, hw⟩ | ⟨-, hw⟩ := s.memWrite1_cases a v <;> rw [hw] at h <;> cases h
  · exact ⟨rfl, fun hm => Memory.wf_writeCell_word hm c v⟩
  · exact ⟨rfl, id⟩

end Machine

end Sys2Proof
end

