-- ==== Sys2Proof/Laws/Delivery.lean ====
section
/-! SUPPORT. What an interrupt delivery and the boundary check can do (spec/60_exceptions.md R231, R236,
R240), said once. -/

namespace Sys2Proof.Machine

/-- Everything a delivery can do: complete, or abort with a diagnostic. Either way the new memory keeps
the canonical form and no other field than those shown changes. -/
theorem State.deliver_cases (s : State) (k : IrqKind) :
    (∃ m target, (s.mem.wf = true → m.wf = true) ∧
      s.deliver k = { s with
        mem := m, pc := target, sp := s.sp - 2, pending := s.pending.set k false }) ∨
    (∃ m a, (s.mem.wf = true → m.wf = true) ∧
      s.deliver k = { s with mem := m, outputs := s.outputs ++ [.deliveryAborted k a] }) := by
  unfold State.deliver
  split
  · exact .inr ⟨s.mem, _, id, rfl⟩
  · next s1 h1 =>
    obtain ⟨e1, w1⟩ := State.memWrite1_done h1
    split
    · exact .inr ⟨s1.mem, _, w1, by rw [e1]; rfl⟩
    · next s2 h2 =>
      obtain ⟨e2, w2⟩ := State.memWrite1_done h2
      split
      · exact .inr ⟨s2.mem, _, w2 ∘ w1, by rw [e2, e1]; rfl⟩
      · exact .inl ⟨s2.mem, _, w2 ∘ w1, by rw [e2, e1]⟩

/-- Everything the boundary check can do. -/
theorem State.boundaryCheck_cases (s : State) :
    (s.dueInterrupt = none ∧ s.boundaryCheck = s) ∨
    (∃ k, s.dueInterrupt = some k ∧ s.boundaryCheck = s.deliver k) := by
  unfold State.boundaryCheck
  cases h : s.dueInterrupt
  · exact .inl ⟨rfl, rfl⟩
  · exact .inr ⟨_, rfl, rfl⟩

/-- The boundary check keeps `status`, `x`, `y`, `acc`, `sr`, the configuration and the canonical form of
memory. -/
theorem State.boundaryCheck_frame (s : State) :
    s.boundaryCheck.status = s.status ∧ s.boundaryCheck.x = s.x ∧ s.boundaryCheck.y = s.y ∧
    s.boundaryCheck.acc = s.acc ∧ s.boundaryCheck.sr = s.sr ∧ s.boundaryCheck.cfg = s.cfg ∧
    (s.mem.wf = true → s.boundaryCheck.mem.wf = true) := by
  obtain ⟨-, h⟩ | ⟨k, -, h⟩ := s.boundaryCheck_cases
  · rw [h]; exact ⟨rfl, rfl, rfl, rfl, rfl, rfl, id⟩
  · obtain ⟨m, _, hm, hd⟩ | ⟨m, _, hm, hd⟩ := s.deliver_cases k <;>
      (rw [h, hd]; exact ⟨rfl, rfl, rfl, rfl, rfl, rfl, hm⟩)

end Sys2Proof.Machine
end

