-- ==== Sys2Proof/Laws/Exec.lean ====
section
/-! SUPPORT. What an instruction can do, said once: `exec` is one of four shared operations applied to the
instruction's mode and operand, and each operation has one inversion lemma. Later proofs cite these
and never unfold `exec`. -/

namespace Sys2Proof

/-- The four kinds of instruction with the registers they name. -/
inductive Action where
  | load (dest : Machine.Reg)
  | store (src : Machine.Reg)
  | transfer (src dest : Machine.Reg)
  | halt
deriving DecidableEq, Repr

/-- The kind of a mnemonic (spec/00_scope.md R1). -/
def Mnemonic.action : Mnemonic → Action
  | .LDA => .load .acc
  | .LDX => .load .x
  | .LDY => .load .y
  | .STA => .store .acc
  | .STX => .store .x
  | .STY => .store .y
  | .TAX => .transfer .acc .x
  | .TAY => .transfer .acc .y
  | .TXA => .transfer .x .acc
  | .TYA => .transfer .y .acc
  | .BREAK => .halt

theorem Instr.isBreak_iff (i : Instr) : i.isBreak = true ↔ i = .brk := by
  cases i <;> simp [Instr.isBreak, Instr.mnemonic]

theorem Instr.action_eq_halt_iff (i : Instr) : i.mnemonic.action = .halt ↔ i = .brk := by
  cases i <;> simp [Instr.mnemonic, Mnemonic.action]

theorem Instr.len_of_transfer (i : Instr) {p q : Machine.Reg}
    (h : i.mnemonic.action = .transfer p q) : i.len = 1 := by
  revert h
  cases i <;> simp [Instr.mnemonic, Mnemonic.action, Instr.len, Instr.mode,
    AddressingMode.operandBytes]

theorem Instr.len_pos (i : Instr) : 1 ≤ i.len := Nat.le_add_right ..

theorem Instr.len_le (i : Instr) : i.len ≤ 3 := by
  unfold Instr.len
  cases i.mode <;> simp [AddressingMode.operandBytes]

namespace Machine

/-- `exec` by kind, over the instruction's own mode and operand. -/
theorem exec_eq_action (i : Instr) (s : State) :
    exec i s =
      match i.mnemonic.action with
      | .load r => load r i.mode i.operand s
      | .store r => store r i.mode i.operand s
      | .transfer src dest => transfer src dest s
      | .halt => execBrk s := by
  cases i <;> rfl

/-- Writing a register's own value changes nothing. -/
theorem State.setReg_self (s : State) (r : Reg) : s.setReg r (s.reg r) = s := by cases r <;> rfl

/-- Everything a load can do (R120, R121). -/
theorem load_cases (r : Reg) (mode : AddressingMode) (w : Word) (s : State) :
    (∃ v, load r mode w s = .next ((s.setReg r v).advance (1 + mode.operandBytes))) ∨
    (∃ a, load r mode w s = s.raise (.memoryTransactionError a)) := by
  unfold load
  split
  · exact .inr ⟨_, rfl⟩
  · exact .inl ⟨_, rfl⟩
  · split
    · exact .inr ⟨_, rfl⟩
    · exact .inl ⟨_, rfl⟩
  · exact .inl ⟨s.reg r, by rw [State.setReg_self]⟩

/-- Everything a store can do (R150, R151): it completes with a memory that agrees outside the written
cell and keeps the canonical form, or it faults without effect. -/
theorem store_cases (r : Reg) (mode : AddressingMode) (w : Word) (s : State) :
    (∃ m, (s.mem.wf = true → m.wf = true) ∧
      store r mode w s = .next (({ s with mem := m } : State).advance (1 + mode.operandBytes))) ∨
    (∃ a, store r mode w s = s.raise (.memoryTransactionError a)) := by
  unfold store
  split
  · exact .inr ⟨_, rfl⟩
  · split
    · exact .inr ⟨_, rfl⟩
    · next h =>
      obtain ⟨ht, hwf⟩ := State.memWrite1_done h
      exact .inl ⟨_, hwf, by rw [← ht]⟩
  · exact .inl ⟨s.mem, id, rfl⟩

/-- Everything BREAK can do (R181, R182). -/
theorem execBrk_cases (s : State) :
    (s.cfg.onBreak = .haltForDebug ∧ execBrk s = .next (s.setStatus (.halted .debugHalt))) ∨
    (s.cfg.onBreak = .shutdownWithDump ∧
      execBrk s = .next ((s.emit (.report s.report)).setStatus (.halted .shutdown))) := by
  unfold execBrk
  cases h : s.cfg.onBreak
  · exact .inl ⟨rfl, rfl⟩
  · exact .inr ⟨rfl, rfl⟩

/-- Everything an instruction can do: write one register and advance, write memory and advance, halt
(BREAK), or fault without effect. -/
theorem exec_cases (i : Instr) (s : State) :
    (i ≠ .brk ∧ ∃ r v, exec i s = .next ((s.setReg r v).advance i.len)) ∨
    (i ≠ .brk ∧ ∃ m, (s.mem.wf = true → m.wf = true) ∧
      exec i s = .next (({ s with mem := m } : State).advance i.len)) ∨
    (i = .brk ∧ ∃ o r, exec i s = .next ({ s with outputs := o, status := .halted r })) ∨
    (i ≠ .brk ∧ ∃ a, exec i s = s.raise (.memoryTransactionError a)) := by
  rw [exec_eq_action]
  have hiff := i.action_eq_halt_iff
  cases hm : i.mnemonic.action with
  | load r =>
    have hb : i ≠ .brk := fun h => by rw [hiff.2 h] at hm; cases hm
    obtain ⟨v, h⟩ | ⟨a, h⟩ := load_cases r i.mode i.operand s
    · exact .inl ⟨hb, r, v, h⟩
    · exact .inr (.inr (.inr ⟨hb, a, h⟩))
  | store r =>
    have hb : i ≠ .brk := fun h => by rw [hiff.2 h] at hm; cases hm
    obtain ⟨m, hwf, h⟩ | ⟨a, h⟩ := store_cases r i.mode i.operand s
    · exact .inr (.inl ⟨hb, m, hwf, h⟩)
    · exact .inr (.inr (.inr ⟨hb, a, h⟩))
  | transfer src dest =>
    have hb : i ≠ .brk := fun h => by rw [hiff.2 h] at hm; cases hm
    exact .inl ⟨hb, dest, s.reg src, by rw [i.len_of_transfer hm]; rfl⟩
  | halt =>
    obtain ⟨-, h⟩ | ⟨-, h⟩ := execBrk_cases s <;>
      exact .inr (.inr (.inl ⟨hiff.1 hm, _, _, h⟩))

end Machine

end Sys2Proof
end

