-- ==== Sys2Proof/Laws/PerInstr.lean ====
section
/-! SUPPORT. Facts about each instruction as syntax: its encoding has its declared length, and its opcode
byte is the row whose format has its number of operand bytes (spec/30_encoding.md R86, R89). -/

namespace Sys2Proof.Laws.Encoding

/-- The encoding of `i` has `i.len` bytes, and its opcode byte is in the opcode map with a format of as
many operand bytes as the mode of `i` has. -/
def Statement (i : Instr) : Prop :=
  (encode i).length = i.len ∧
    ∃ form, decodeOpcode i.opcode = some form ∧ form.operandBytes = i.mode.operandBytes

theorem ldaImm (v : Byte) : Statement (.ldaImm v) := ⟨rfl, _, rfl, rfl⟩
theorem ldaZp (v : Byte) : Statement (.ldaZp v) := ⟨rfl, _, rfl, rfl⟩
theorem ldaZpX (v : Byte) : Statement (.ldaZpX v) := ⟨rfl, _, rfl, rfl⟩
theorem ldaAbs (v : Word) : Statement (.ldaAbs v) := ⟨rfl, _, rfl, rfl⟩
theorem ldaAbsX (v : Word) : Statement (.ldaAbsX v) := ⟨rfl, _, rfl, rfl⟩
theorem ldaAbsY (v : Word) : Statement (.ldaAbsY v) := ⟨rfl, _, rfl, rfl⟩
theorem ldaIndX (v : Byte) : Statement (.ldaIndX v) := ⟨rfl, _, rfl, rfl⟩
theorem ldaIndY (v : Byte) : Statement (.ldaIndY v) := ⟨rfl, _, rfl, rfl⟩
theorem ldxImm (v : Byte) : Statement (.ldxImm v) := ⟨rfl, _, rfl, rfl⟩
theorem ldxZp (v : Byte) : Statement (.ldxZp v) := ⟨rfl, _, rfl, rfl⟩
theorem ldxZpY (v : Byte) : Statement (.ldxZpY v) := ⟨rfl, _, rfl, rfl⟩
theorem ldxAbs (v : Word) : Statement (.ldxAbs v) := ⟨rfl, _, rfl, rfl⟩
theorem ldxAbsY (v : Word) : Statement (.ldxAbsY v) := ⟨rfl, _, rfl, rfl⟩
theorem ldyImm (v : Byte) : Statement (.ldyImm v) := ⟨rfl, _, rfl, rfl⟩
theorem ldyZp (v : Byte) : Statement (.ldyZp v) := ⟨rfl, _, rfl, rfl⟩
theorem ldyZpX (v : Byte) : Statement (.ldyZpX v) := ⟨rfl, _, rfl, rfl⟩
theorem ldyAbs (v : Word) : Statement (.ldyAbs v) := ⟨rfl, _, rfl, rfl⟩
theorem ldyAbsX (v : Word) : Statement (.ldyAbsX v) := ⟨rfl, _, rfl, rfl⟩
theorem staZp (v : Byte) : Statement (.staZp v) := ⟨rfl, _, rfl, rfl⟩
theorem staZpX (v : Byte) : Statement (.staZpX v) := ⟨rfl, _, rfl, rfl⟩
theorem staAbs (v : Word) : Statement (.staAbs v) := ⟨rfl, _, rfl, rfl⟩
theorem staAbsX (v : Word) : Statement (.staAbsX v) := ⟨rfl, _, rfl, rfl⟩
theorem staAbsY (v : Word) : Statement (.staAbsY v) := ⟨rfl, _, rfl, rfl⟩
theorem staIndX (v : Byte) : Statement (.staIndX v) := ⟨rfl, _, rfl, rfl⟩
theorem staIndY (v : Byte) : Statement (.staIndY v) := ⟨rfl, _, rfl, rfl⟩
theorem stxZp (v : Byte) : Statement (.stxZp v) := ⟨rfl, _, rfl, rfl⟩
theorem stxZpY (v : Byte) : Statement (.stxZpY v) := ⟨rfl, _, rfl, rfl⟩
theorem stxAbs (v : Word) : Statement (.stxAbs v) := ⟨rfl, _, rfl, rfl⟩
theorem styZp (v : Byte) : Statement (.styZp v) := ⟨rfl, _, rfl, rfl⟩
theorem styZpX (v : Byte) : Statement (.styZpX v) := ⟨rfl, _, rfl, rfl⟩
theorem styAbs (v : Word) : Statement (.styAbs v) := ⟨rfl, _, rfl, rfl⟩
theorem tax : Statement .tax := ⟨rfl, _, rfl, rfl⟩
theorem tay : Statement .tay := ⟨rfl, _, rfl, rfl⟩
theorem txa : Statement .txa := ⟨rfl, _, rfl, rfl⟩
theorem tya : Statement .tya := ⟨rfl, _, rfl, rfl⟩
theorem brk : Statement .brk := ⟨rfl, _, rfl, rfl⟩

/-- The statement holds of every instruction. -/
theorem all (i : Instr) : Statement i := by
  cases i <;> exact ⟨rfl, _, rfl, rfl⟩

end Sys2Proof.Laws.Encoding
end

