-- ==== Sys2Proof/Laws/Platform.lean ====
section
/-! SUPPORT. What a region covers and assigns, on integers, and how a region list is searched: what a claim
about a concrete map (spec/20_memory.md R62) is proved from. -/

namespace Sys2Proof

theorem Region.covers_iff {r : Region} {a : Word} :
    r.covers a = true ↔ r.first.toNat ≤ a.toNat ∧ a.toNat ≤ r.last.toNat := by
  simp [covers, BitVec.le_def]

/-- A region without a mirror whose cells are named by their addresses. -/
theorem Region.cellOf_self {r : Region} {a : Word} (hp : r.period = 0) (hc : r.cell = r.first)
    (h : r.first.toNat ≤ a.toNat) : r.cellOf a = a := by
  apply BitVec.eq_of_toNat_eq
  have := a.isLt
  simp only [cellOf, hp, hc, Nat.mod_zero, BitVec.toNat_add, BitVec.toNat_ofNat]
  omega

/-- The first region that covers an address decides; an address no region covers is `Unmapped`. -/
theorem MemMap.entry_cons_of_covers {r : Region} {rs : MemMap} {a : Word} (h : r.covers a = true) :
    MemMap.entry (r :: rs) a = r.entry a := if_pos h

theorem MemMap.entry_cons_of_not_covers {r : Region} {rs : MemMap} {a : Word}
    (h : ¬ r.covers a = true) : MemMap.entry (r :: rs) a = MemMap.entry rs a := if_neg h

theorem MemMap.entry_of_no_covers {m : MemMap} {a : Word} (h : ∀ r ∈ m, ¬ r.covers a = true) :
    MemMap.entry m a = .unmapped := by
  induction m with
  | nil => rfl
  | cons r rs ih =>
    rw [entry_cons_of_not_covers (h r (List.mem_cons_self ..))]
    exact ih fun r hr => h r (List.mem_cons_of_mem _ hr)

/-- Every entry comes from a region that covers the address, or is `Unmapped`. -/
theorem MemMap.entry_cases (m : MemMap) (a : Word) :
    (∃ r ∈ m, r.covers a = true ∧ MemMap.entry m a = r.entry a) ∨
    ((∀ r ∈ m, ¬ r.covers a = true) ∧ MemMap.entry m a = .unmapped) := by
  induction m with
  | nil => exact .inr ⟨fun _ h => (nomatch h), rfl⟩
  | cons r rs ih =>
    by_cases h : r.covers a = true
    · exact .inl ⟨r, List.mem_cons_self .., h, entry_cons_of_covers h⟩
    · rw [entry_cons_of_not_covers h]
      obtain ⟨q, hq, hc, he⟩ | ⟨hn, he⟩ := ih
      · exact .inl ⟨q, List.mem_cons_of_mem _ hq, hc, he⟩
      · exact .inr ⟨List.forall_mem_cons.2 ⟨h, hn⟩, he⟩

theorem LowRam.wellFormed_iff {r : LowRam} :
    r.wellFormed = true ↔ 1 ≤ r.size ∧ r.size ≤ r.stride ∧ 1 ≤ r.copies ∧
      r.first + (r.copies - 1) * r.stride + r.size ≤ 0x6000 := by
  simp [wellFormed, and_assoc]

/-- Every copy of a well-formed low RAM ends below 0x6000. -/
theorem LowRam.copy_end_le {r : LowRam} (h : r.wellFormed = true) {k : Nat} (hk : k < r.copies) :
    r.first + k * r.stride + r.size ≤ 0x6000 := by
  have := (wellFormed_iff.1 h).2.2.2
  have : k * r.stride ≤ (r.copies - 1) * r.stride := Nat.mul_le_mul_right _ (by omega)
  omega

theorem LowRam.copy_covers_iff {r : LowRam} (h : r.wellFormed = true) {k : Nat} (hk : k < r.copies)
    {a : Word} : (r.copy k).covers a = true ↔
      r.first + k * r.stride ≤ a.toNat ∧ a.toNat < r.first + k * r.stride + r.size := by
  have := copy_end_le h hk
  have := (wellFormed_iff.1 h).1
  simp only [Region.covers_iff, copy, BitVec.toNat_ofNat]
  omega

/-- A copy assigns the cell of the first copy at the same distance from its start. -/
theorem LowRam.copy_entry {r : LowRam} (h : r.wellFormed = true) {k : Nat} (hk : k < r.copies)
    (a : Word) : (r.copy k).entry a =
      .ram (BitVec.ofNat 16 (r.first + (a.toNat - (r.first + k * r.stride)))) := by
  have := copy_end_le h hk
  have := (wellFormed_iff.1 h).1
  simp only [Region.entry, copy, Region.cellOf, Nat.mod_zero, BitVec.toNat_ofNat]
  rw [Nat.mod_eq_of_lt (by omega : r.first + k * r.stride < 2 ^ 16), BitVec.ofNat_add]

end Sys2Proof
end

