-- ==== Sys2Proof/Tests/Slice0.lean ====
section
/-! SUPPORT. The model's own tests: the checks of WellFormed refuse ill-formed terms, every constructor's
decoding on words written out from spec/30_encoding.md R89, one step per instruction from the vectors of
spec/95_test_vectors.md, and for every obligation with hypotheses a witness that meets them. -/

namespace Sys2Proof.Tests

open Sys2Proof.Machine Sys2Proof.Claims

/-! ### Helpers -/

/-- The start state of spec/95_test_vectors.md sections 3 to 5. -/
def start : State :=
  { State.reset with
    pc := 0x8000, sp := 0xFD, x := 0x04, y := 0x10, acc := 0xAA, sr := 0xA5
    pending := ⟨false, false, false⟩ }

/-- `s` with bytes placed in memory. -/
def poke (s : State) (l : List (Word × Byte)) : State := l.foldl (fun t e => t.hostLoad e.1 e.2) s

/-- `s` with the data `l` in memory and the code `bs` at `pc`. -/
def prep (s : State) (l : List (Word × Byte)) (bs : List Byte) : State :=
  (poke s l).hostLoadList s.pc bs

/-- `s` under another block cap. -/
def cap (n : Nat) (s : State) : State := { s with cfg := { s.cfg with maxInsns := n } }

/-- `s` under strict zero-page wrap. -/
def strict (s : State) : State := { s with cfg := { s.cfg with zpIndexPolicy := .strictWrap } }

/-- `s` on a platform with every kind of region: RAM mirrored every 2 KiB below 0x4000, a hole, both kinds of
ROM, RAM above. -/
def mixed (s : State) : State :=
  { s with cfg := { s.cfg with memMap :=
    [⟨0x0000, 0x3FFF, .ram, 0x0000, 0x0800⟩, ⟨0x4000, 0x4FFF, .unmapped, 0, 0⟩,
     ⟨0x5000, 0x5FFF, .rom .ignore, 0x5000, 0⟩, ⟨0x6000, 0x6FFF, .rom .reject, 0x6000, 0⟩,
     ⟨0x7000, 0xFFFF, .ram, 0x7000, 0⟩] } }

/-- 2 KiB of low RAM seen four times; the spec gives no values, these are one instance (N28). -/
def lowRam : LowRam := ⟨0x0000, 0x0800, 0x0800, 4⟩

/-- `s` on the platform of spec/20_memory.md R62. -/
def mapper0 (w : OnWrite) (s : State) : State :=
  { s with cfg := { s.cfg with memMap := .mapper0 lowRam w } }

/-- The vectors of spec/95_test_vectors.md section 8. -/
def vectors : List (Word × Byte) :=
  [(0xFFFB, 0x90), (0xFFFD, 0x80), (0xFFFF, 0xA0)]

/-- Fields of the next state of one step. -/
def after {α : Type} (f : State → α) (s : State) : Option α := (nextOf (step s)).map f

/-! ### WellFormed refuses -/

theorem test_config_zero_cap_refused :
    Config.wellFormed { Config.atReset with maxInsns := 0 } = false := by decide

theorem test_config_at_reset_accepted : Config.wellFormed Config.atReset = true := by decide

/-- R62: no RAM, copies that overlap, no copy, a copy that reaches 0x6000. -/
theorem test_low_ram_refused :
    LowRam.wellFormed ⟨0, 0, 0x800, 1⟩ = false ∧ LowRam.wellFormed ⟨0, 0x801, 0x800, 2⟩ = false ∧
    LowRam.wellFormed ⟨0, 0x800, 0x800, 0⟩ = false ∧
    LowRam.wellFormed ⟨1, 0x800, 0x800, 12⟩ = false := by decide

theorem test_low_ram_accepted :
    lowRam.wellFormed = true ∧ LowRam.wellFormed ⟨0, 0x6000, 0x6000, 1⟩ = true := by decide

/-- R194: `A9` at 0xFFF9 would have its operand at 0xFFFA. -/
theorem test_descriptor_straddling_refused :
    Descriptor.wellFormed ⟨.ldaImm 0x11, 0xFFF9⟩ = false := by decide

theorem test_descriptor_at_the_edge_accepted :
    Descriptor.wellFormed ⟨.ldaImm 0x11, 0xFFF8⟩ = true := by decide

theorem test_block_empty_refused :
    Block.wellFormed 4 ⟨0x8000, [], .tooManyInstructions⟩ = false := by decide

theorem test_block_over_cap_refused :
    Block.wellFormed 1 ⟨0x8000, [⟨.tax, 0x8000⟩, ⟨.tay, 0x8001⟩], .tooManyInstructions⟩ = false := by
  decide

theorem test_block_gap_refused :
    Block.wellFormed 4 ⟨0x8000, [⟨.tax, 0x8000⟩, ⟨.tay, 0x8002⟩], .tooManyInstructions⟩ = false := by
  decide

theorem test_block_break_not_last_refused :
    Block.wellFormed 4 ⟨0x8000, [⟨.brk, 0x8000⟩, ⟨.tay, 0x8001⟩], .tooManyInstructions⟩ = false := by
  decide

theorem test_block_wrong_terminal_refused :
    Block.wellFormed 4 ⟨0x8000, [⟨.brk, 0x8000⟩], .tooManyInstructions⟩ = false ∧
    Block.wellFormed 4 ⟨0x8000, [⟨.tax, 0x8000⟩], .fallThrough⟩ = false := by decide

theorem test_block_accepted :
    Block.wellFormed 2 ⟨0x8000, [⟨.ldaImm 1, 0x8000⟩, ⟨.brk, 0x8002⟩], .exit⟩ = true := by decide

/-! ### Decoding (R81, R89: opcode byte in binary, low operand byte first) -/

theorem test_decode_lda :
    decodeBytes [0b10101001, 0x12] = .done (.ldaImm 0x12, []) ∧
    decodeBytes [0b10100101, 0x12] = .done (.ldaZp 0x12, []) ∧
    decodeBytes [0b10110101, 0x12] = .done (.ldaZpX 0x12, []) ∧
    decodeBytes [0b10101101, 0x34, 0x12] = .done (.ldaAbs 0x1234, []) ∧
    decodeBytes [0b10111101, 0x34, 0x12] = .done (.ldaAbsX 0x1234, []) ∧
    decodeBytes [0b10111001, 0x34, 0x12] = .done (.ldaAbsY 0x1234, []) ∧
    decodeBytes [0b10100001, 0x12] = .done (.ldaIndX 0x12, []) ∧
    decodeBytes [0b10110001, 0x12] = .done (.ldaIndY 0x12, []) := by decide

theorem test_decode_ldx :
    decodeBytes [0b10100010, 0x12] = .done (.ldxImm 0x12, []) ∧
    decodeBytes [0b10100110, 0x12] = .done (.ldxZp 0x12, []) ∧
    decodeBytes [0b10110110, 0x12] = .done (.ldxZpY 0x12, []) ∧
    decodeBytes [0b10101110, 0x34, 0x12] = .done (.ldxAbs 0x1234, []) ∧
    decodeBytes [0b10111110, 0x34, 0x12] = .done (.ldxAbsY 0x1234, []) := by decide

theorem test_decode_ldy :
    decodeBytes [0b10100000, 0x12] = .done (.ldyImm 0x12, []) ∧
    decodeBytes [0b10100100, 0x12] = .done (.ldyZp 0x12, []) ∧
    decodeBytes [0b10110100, 0x12] = .done (.ldyZpX 0x12, []) ∧
    decodeBytes [0b10101100, 0x34, 0x12] = .done (.ldyAbs 0x1234, []) ∧
    decodeBytes [0b10111100, 0x34, 0x12] = .done (.ldyAbsX 0x1234, []) := by decide

theorem test_decode_sta :
    decodeBytes [0b10000101, 0x12] = .done (.staZp 0x12, []) ∧
    decodeBytes [0b10010101, 0x12] = .done (.staZpX 0x12, []) ∧
    decodeBytes [0b10001101, 0x34, 0x12] = .done (.staAbs 0x1234, []) ∧
    decodeBytes [0b10011101, 0x34, 0x12] = .done (.staAbsX 0x1234, []) ∧
    decodeBytes [0b10011001, 0x34, 0x12] = .done (.staAbsY 0x1234, []) ∧
    decodeBytes [0b10000001, 0x12] = .done (.staIndX 0x12, []) ∧
    decodeBytes [0b10010001, 0x12] = .done (.staIndY 0x12, []) := by decide

theorem test_decode_stx_sty :
    decodeBytes [0b10000110, 0x12] = .done (.stxZp 0x12, []) ∧
    decodeBytes [0b10010110, 0x12] = .done (.stxZpY 0x12, []) ∧
    decodeBytes [0b10001110, 0x34, 0x12] = .done (.stxAbs 0x1234, []) ∧
    decodeBytes [0b10000100, 0x12] = .done (.styZp 0x12, []) ∧
    decodeBytes [0b10010100, 0x12] = .done (.styZpX 0x12, []) ∧
    decodeBytes [0b10001100, 0x34, 0x12] = .done (.styAbs 0x1234, []) := by decide

theorem test_decode_one_byte :
    decodeBytes [0b10101010] = .done (.tax, []) ∧ decodeBytes [0b10101000] = .done (.tay, []) ∧
    decodeBytes [0b10001010] = .done (.txa, []) ∧ decodeBytes [0b10011000] = .done (.tya, []) ∧
    decodeBytes [0b00000000, 0x77] = .done (.brk, [0x77]) := by decide

/-- The spot checks of spec/95_test_vectors.md section 10. -/
theorem test_decode_illegal :
    ∀ op ∈ [(0xEA : Byte), 0x4C, 0x20, 0x40, 0x9A, 0xBA, 0x9E, 0x9C, 0xB7, 0xFF],
      decodeOpcode op = none := by decide

/-- R89, R92: 36 rows in ascending order of the opcode byte, so no two rows overlap. -/
theorem test_opcode_table_ascending :
    opcodeTable.length = 36 ∧
    (opcodeTable.map Prod.fst).Pairwise (fun p q => p.toNat < q.toNat) := by decide

/-- Words numbered as spec/opcode_table.json numbers them. -/
theorem test_decode_table_word :
    decodeTableWord 8 0xAA = some .tax ∧ decodeTableWord 16 0x12A9 = some (.ldaImm 0x12) ∧
    decodeTableWord 24 0x1234AD = some (.ldaAbs 0x1234) ∧ decodeTableWord 8 0xAD = some (.ldaAbs 0) ∧
    decodeTableWord 8 0x02 = none := by decide

/-- `withFetchWord` makes the first step after reset run the word, after the Reset delivery. -/
theorem test_fetch_word_runs_first :
    after (fun t => (t.acc, t.pc, t.pending.reset)) (State.reset.withFetchWord 16 0x7FA9) =
      some (0x7F, 0x8002, false) := by decide

/-! ### Loads (spec/95_test_vectors.md section 3) -/

theorem test_lda_imm : after (fun t => (t.acc, t.pc, t.sr)) (prep start [] [0xA9, 0x00]) =
    some (0x00, 0x8002, 0xA5) := by decide
theorem test_lda_zp : after (fun t => (t.acc, t.pc)) (prep start [(0x0080, 0x5A)] [0xA5, 0x80]) =
    some (0x5A, 0x8002) := by decide
theorem test_lda_zpx_raw : after (fun t => (t.acc, t.pc))
    (prep { start with x := 0x20 } [(0x0010, 0x22), (0x0110, 0x11)] [0xB5, 0xF0]) =
    some (0x11, 0x8002) := by decide
theorem test_lda_zpx_strict : after (fun t => (t.acc, t.pc))
    (strict (prep { start with x := 0x20 } [(0x0010, 0x22), (0x0110, 0x11)] [0xB5, 0xF0])) =
    some (0x22, 0x8002) := by decide
theorem test_lda_abs : after (fun t => (t.acc, t.pc)) (prep start [(0x1234, 0xC3)] [0xAD, 0x34, 0x12]) =
    some (0xC3, 0x8003) := by decide
theorem test_lda_absx : after (fun t => (t.acc, t.pc))
    (prep { start with x := 0x20 } [(0x1310, 0x99)] [0xBD, 0xF0, 0x12]) = some (0x99, 0x8003) := by decide
theorem test_lda_absy : after (fun t => (t.acc, t.pc))
    (prep { start with y := 0x20 } [(0x0010, 0x3C)] [0xB9, 0xF0, 0xFF]) = some (0x3C, 0x8003) := by decide
theorem test_lda_indx : after (fun t => (t.acc, t.pc))
    (prep start [(0x0024, 0x78), (0x0025, 0x56), (0x5678, 0xE1)] [0xA1, 0x20]) =
    some (0xE1, 0x8002) := by decide
/-- A pointer at 0x00FF takes its high byte from 0x0100 (section 2). -/
theorem test_lda_indx_page_end : after (fun t => t.acc)
    (prep { start with x := 0 } [(0x00FF, 0x34), (0x0100, 0x12), (0x0000, 0x99), (0x1234, 0x5C)]
      [0xA1, 0xFF]) = some 0x5C := by decide
theorem test_lda_indy : after (fun t => (t.acc, t.pc, t.sr))
    (prep { start with y := 0x20 } [(0x0040, 0xF0), (0x0041, 0x12), (0x1310, 0x80)] [0xB1, 0x40]) =
    some (0x80, 0x8002, 0xA5) := by decide
theorem test_lda_unmapped_faults : faultOf (step (prep (mixed start) [] [0xAD, 0x00, 0x40])) =
    some (.memoryTransactionError 0x4000 { prep (mixed start) [] [0xAD, 0x00, 0x40] with
      status := .fault (.memoryTransactionError 0x4000) }) := by decide
theorem test_ldx_imm : after (fun t => (t.x, t.pc)) (prep start [] [0xA2, 0xFF]) =
    some (0xFF, 0x8002) := by decide
theorem test_ldx_zp : after (fun t => (t.x, t.pc)) (prep start [(0x0010, 0x01)] [0xA6, 0x10]) =
    some (0x01, 0x8002) := by decide
theorem test_ldx_zpy : after (fun t => (t.x, t.pc))
    (prep { start with y := 0xFF } [(0x00FE, 0x88), (0x01FE, 0x77)] [0xB6, 0xFF]) =
    some (0x77, 0x8002) := by decide
theorem test_ldx_abs : after (fun t => (t.x, t.pc)) (prep start [(0x6000, 0x42)] [0xAE, 0x00, 0x60]) =
    some (0x42, 0x8003) := by decide
theorem test_ldx_absy : after (fun t => (t.x, t.pc))
    (prep { start with y := 0x01 } [(0x0100, 0x0F)] [0xBE, 0xFF, 0x00]) = some (0x0F, 0x8003) := by decide
theorem test_ldy_imm : after (fun t => (t.y, t.pc)) (prep start [] [0xA0, 0x80]) =
    some (0x80, 0x8002) := by decide
theorem test_ldy_zp : after (fun t => (t.y, t.pc)) (prep start [(0x0000, 0xEE)] [0xA4, 0x00]) =
    some (0xEE, 0x8002) := by decide
theorem test_ldy_zpx : after (fun t => (t.y, t.pc))
    (prep { start with x := 0x05 } [(0x0015, 0x66)] [0xB4, 0x10]) = some (0x66, 0x8002) := by decide
theorem test_ldy_abs : after (fun t => (t.y, t.pc)) (prep start [(0xFFFC, 0x2B)] [0xAC, 0xFC, 0xFF]) =
    some (0x2B, 0x8003) := by decide
theorem test_ldy_absx : after (fun t => (t.y, t.pc))
    (prep { start with x := 0x01 } [(0x0000, 0x9D)] [0xBC, 0xFF, 0xFF]) = some (0x9D, 0x8003) := by decide

/-! ### Stores (section 4) -/

/-- The next state is the old one with exactly the byte at `a` changed to `v` and `pc` at `pc'`. -/
def storesTo (s : State) (a : Word) (v : Byte) (pc' : Word) : Prop :=
  nextOf (step s) = some { s with mem := s.mem.writeCell a.toNat v, pc := pc' }

theorem test_sta_zp : storesTo (prep { start with acc := 0x5A } [] [0x85, 0x80]) 0x0080 0x5A 0x8002 := by
  unfold storesTo; decide
theorem test_sta_zpx : storesTo (prep { start with acc := 0x11, x := 0x20 } [] [0x95, 0xF0])
    0x0110 0x11 0x8002 := by unfold storesTo; decide
theorem test_sta_zpx_strict : storesTo (strict (prep { start with acc := 0x11, x := 0x20 } [] [0x95, 0xF0]))
    0x0010 0x11 0x8002 := by unfold storesTo; decide
theorem test_sta_abs : storesTo (prep { start with acc := 0x00 } [(0x6000, 0xFF)] [0x8D, 0x00, 0x60])
    0x6000 0x00 0x8003 := by unfold storesTo; decide
theorem test_sta_absx : storesTo (prep { start with acc := 0x99, x := 0x20 } [] [0x9D, 0xF0, 0x12])
    0x1310 0x99 0x8003 := by unfold storesTo; decide
theorem test_sta_absy : storesTo (prep { start with acc := 0x3C, y := 0x20 } [] [0x99, 0xF0, 0xFF])
    0x0010 0x3C 0x8003 := by unfold storesTo; decide
theorem test_sta_indx : storesTo
    (prep { start with acc := 0xE1 } [(0x0024, 0x78), (0x0025, 0x56)] [0x81, 0x20])
    0x5678 0xE1 0x8002 := by unfold storesTo; decide
theorem test_sta_indy : storesTo
    (prep { start with acc := 0x80, y := 0x20 } [(0x0040, 0xF0), (0x0041, 0x12)] [0x91, 0x40])
    0x1310 0x80 0x8002 := by unfold storesTo; decide
theorem test_stx_zp : storesTo (prep { start with x := 0x01 } [] [0x86, 0x10]) 0x0010 0x01 0x8002 := by
  unfold storesTo; decide
theorem test_stx_zpy : storesTo (prep { start with x := 0x77, y := 0xFF } [] [0x96, 0xFF])
    0x01FE 0x77 0x8002 := by unfold storesTo; decide
theorem test_stx_abs : storesTo (prep { start with x := 0x42 } [] [0x8E, 0x01, 0x60])
    0x6001 0x42 0x8003 := by unfold storesTo; decide
theorem test_sty_zp : storesTo (prep { start with y := 0xEE } [] [0x84, 0x00]) 0x0000 0xEE 0x8002 := by
  unfold storesTo; decide
theorem test_sty_zpx : storesTo (prep { start with y := 0x66, x := 0x05 } [] [0x94, 0x10])
    0x0015 0x66 0x8002 := by unfold storesTo; decide
theorem test_sty_abs : storesTo (prep { start with y := 0x9D } [] [0x8C, 0xFF, 0x7F])
    0x7FFF 0x9D 0x8003 := by unfold storesTo; decide

/-- `Rom(_, Ignore)`: only `pc` moves. -/
theorem test_store_rom_ignored :
    nextOf (exec (.staAbs 0x5000) (mixed start)) = some { mixed start with pc := 0x8003 } := by decide

/-- `Rom(_, Reject)`: a fault that leaves `pc` at the store. -/
theorem test_store_rom_rejected :
    faultOf (exec (.staAbs 0x6000) (mixed start)) =
      some (.memoryTransactionError 0x6000 { mixed start with
        status := .fault (.memoryTransactionError 0x6000) }) := by decide

/-- `STY $8000` on the platform of R62 (the example of spec/42_stores.md R162 to R164): ROM. -/
theorem test_mapper0_rom :
    nextOf (exec (.styAbs 0x8000) (mapper0 .ignore start)) =
      some { mapper0 .ignore start with pc := 0x8003 } ∧
    faultOf (exec (.styAbs 0x8000) (mapper0 .reject start)) =
      some (.memoryTransactionError 0x8000 { mapper0 .reject start with
        status := .fault (.memoryTransactionError 0x8000) }) := by decide

/-- A store to a mirror of the low RAM is read at the first copy (R51, R62). -/
theorem test_mapper0_mirror :
    (nextOf (exec (.staAbs 0x1805) (mapper0 .ignore start))).map (fun t => t.memRead1 0x0005) =
      some (.done 0xAA) := by decide

/-! ### Transfers and BREAK (sections 5 and 6) -/

theorem test_tax : after (fun t => (t.x, t.acc, t.pc))
    (prep { start with acc := 0x9C, x := 0x01 } [] [0xAA]) = some (0x9C, 0x9C, 0x8001) := by decide
theorem test_tay : after (fun t => (t.y, t.acc, t.pc, t.sr))
    (prep { start with acc := 0x00, y := 0x7E } [] [0xA8]) = some (0x00, 0x00, 0x8001, 0xA5) := by decide
theorem test_txa : after (fun t => (t.acc, t.x, t.pc))
    (prep { start with x := 0x80, acc := 0x00 } [] [0x8A]) = some (0x80, 0x80, 0x8001) := by decide
theorem test_tya : after (fun t => (t.acc, t.y, t.pc))
    (prep { start with y := 0x33, acc := 0xFF } [] [0x98]) = some (0x33, 0x33, 0x8001) := by decide
theorem test_break_halts : after (fun t => (t.pc, t.acc, t.status, t.outputs))
    (cap 2 (prep start [] [0xA9, 0x01, 0x00])) =
    some (0x8002, 0x01, .halted .debugHalt, []) := by decide
theorem test_break_reports : after (fun t => (t.pc, t.status, t.outputs))
    (let s := cap 3 (prep start [] [0xA9, 0x01, 0x00])
     { s with cfg := { s.cfg with onBreak := .shutdownWithDump } }) =
    some (0x8002, .halted .shutdown, [.report ⟨0x8002, 0xFD, 0xA5, 0x04, 0x10, 0x01⟩]) := by decide

/-! ### Blocks (section 7) -/

/-- B2, row 3: BREAK ends the block, the illegal byte after it is not read. -/
theorem test_break_ends_the_block :
    after (fun t => (t.acc, t.pc, t.status)) (cap 3 (prep start [] [0xA9, 0x01, 0x00, 0x02])) =
      some (0x01, 0x8002, .halted .debugHalt) := by decide

/-- B3: an illegal opcode prevents the whole block. -/
theorem test_illegal_in_block :
    (faultOf (step (cap 2 (prep start [] [0xA9, 0x01, 0x02])))).map
      (fun f => (f.after.acc, f.after.pc, f.after.status)) =
      some (0xAA, 0x8000, .fault (.illegalInstruction 0x8002 0x02)) := by decide

/-- B4: the last byte may lie at 0xFFF9, not above. -/
theorem test_fetch_range_edge :
    after (fun t => (t.acc, t.pc)) (prep { start with pc := 0xFFF8 } [] [0xA9, 0x11]) =
      some (0x11, 0xFFFA) ∧
    (faultOf (step (prep { start with pc := 0xFFF9 } [] [0xA9, 0x11]))).map (fun f => f.after.status) =
      some (.fault (.fetchOutOfRange 0xFFF9)) := by decide

/-- B5: inside a block the stale decode runs, with `MAX_INSNS = 2` the new code does. -/
theorem test_self_modifying_stale :
    after (fun t => (t.acc, t.x, t.status))
      (cap 4 (prep { start with acc := 0, x := 0 } [] [0xA9, 0xA2, 0x8D, 0x05, 0x80, 0xA9, 0x33, 0x00])) =
      some (0x33, 0x00, .halted .debugHalt) := by decide

/-! ### Interrupts (section 8) -/

/-- I1, Nmi, `STACK_BASE = 0x0000`. -/
theorem test_delivery :
    let t := (poke { start with pc := 0x1234, pending := ⟨false, true, false⟩ } vectors).boundaryCheck
    (t.pc, t.sp, t.pending, t.memRead1 0x00FD, t.memRead1 0x00FC) =
      (0x9000, 0xFB, ⟨false, false, false⟩, .done 0x12, .done 0x34) := by decide

/-- I2: `sp = 0x00` with `STACK_BASE = 0x0100`. -/
theorem test_delivery_sp_wraps :
    let s := { start with pc := 0xBEEF, sp := 0x00, pending := ⟨false, true, false⟩ }
    let t := (poke { s with cfg := { s.cfg with stackBase := .pageOne } } vectors).boundaryCheck
    (t.sp, t.memRead1 0x0100, t.memRead1 0x01FF) = (0xFE, .done 0xBE, .done 0xEF) := by decide

/-- I4: only bit 2 of `sr` masks, and only Irq. -/
theorem test_masking :
    ({ start with sr := 0x04, pending := ⟨false, false, true⟩ }).dueInterrupt = none ∧
    ({ start with sr := 0xFB, pending := ⟨false, false, true⟩ }).dueInterrupt = some .irq ∧
    ({ start with sr := 0xFF, pending := ⟨false, true, true⟩ }).dueInterrupt = some .nmi := by decide

/-- I6: an unreadable vector: pushes stay, registers and `pending` are restored, a diagnostic, the program
goes on. -/
theorem test_aborted_delivery :
    after (fun t => ((t.acc, t.pc, t.sp), t.pending, t.outputs, t.memRead1 0x0080))
      (let s := prep { start with sp := 0x80, pending := ⟨false, true, false⟩ } [] [0xA9, 0x01]
       { s with cfg := { s.cfg with memMap := ⟨0xFFFA, 0xFFFB, .unmapped, 0, 0⟩ :: s.cfg.memMap } }) =
      some ((0x01, 0x8002, 0x80), ⟨false, true, false⟩, [.deliveryAborted .nmi 0xFFFA], .done 0x80) := by decide

/-- P3, step 1: with all three pending Reset is delivered and one block runs. -/
theorem test_priority :
    after (fun t => (t.pc, t.acc, t.pending))
      (prep { start with pending := ⟨true, true, true⟩, pc := 0x8000 } vectors [0xA9, 0x01]) =
      some (0x8002, 0x01, ⟨false, true, true⟩) := by decide

/-! ### Witnesses: for every obligation with hypotheses, states and operands that meet them, clause by clause
at boundary values -/

/-- `LDA #$11` at 0xFFF8, the last place it fits. -/
def edge : State := prep { start with pc := 0xFFF8 } [] [0xA9, 0x11]

theorem witness_EncodeAfterDecodeGivesTheBytes :
    decodeBytes [0xAD, 0x34, 0x12, 0x77] = .done (.ldaAbs 0x1234, [0x77]) := by decide

theorem witness_IllegalOpcodesAreReported :
    (∀ b ∈ [(0x01 : Byte), 0x80, 0x82, 0x9C, 0xBF, 0xC0, 0xFF],
      (prep start [] [b]).memRead1 0x8000 = .done b ∧
      (prep start [] [b]).decodeAt 0x8000 = .raised (.illegalInstruction 0x8000 b)) ∧
    IllegalOpcode 0x01 ∧ IllegalOpcode 0x80 ∧ IllegalOpcode 0x82 ∧ IllegalOpcode 0x9C ∧
    IllegalOpcode 0xBF ∧ IllegalOpcode 0xC0 ∧ IllegalOpcode 0xFF :=
  ⟨by decide, by simp [IllegalOpcode]⟩

theorem witness_DecoderReadsTheBytesAtTheAddress :
    (0xFFF8 : Word) ≤ 0xFFF9 ∧ edge.decodeAt 0xFFF8 = .done ⟨.ldaImm 0x11, 0xFFF8⟩ ∧
    BytesAt edge 0xFFF8 (encode (.ldaImm 0x11)) ∧
    (0xFFF8 : Word).toNat + (Instr.ldaImm 0x11).len = 0xFFFA := by
  refine ⟨by decide, by decide, ⟨?_, ?_, trivial⟩, by decide⟩ <;> decide

theorem witness_StraddlingInstructionIsRefused :
    (prep start [(0xFFF9, 0xA9)] []).memRead1 0xFFF9 = .done (Instr.ldaImm 0).opcode ∧
    0xFFF9 < (0xFFF9 : Word).toNat + ((Instr.ldaImm 0).len - 1) ∧
    (prep start [(0xFFF8, 0xAD)] []).memRead1 0xFFF8 = .done (Instr.ldaAbs 0).opcode ∧
    0xFFF9 < (0xFFF8 : Word).toNat + ((Instr.ldaAbs 0).len - 1) ∧
    (prep start [(0xFFF9, 0x02)] []).memRead1 0xFFF9 = .done 0x02 ∧ IllegalOpcode 0x02 :=
  ⟨by decide, by decide, by decide, by decide, by decide, by simp [IllegalOpcode]⟩

theorem witness_DecodingReadsMemoryOnly :
    edge ≠ { edge with acc := 0, sr := 0xFF, pending := ⟨true, true, true⟩ } ∧
    edge.mem = ({ edge with acc := 0, sr := 0xFF, pending := ⟨true, true, true⟩ }).mem := by decide

/-- Two instructions, then BREAK. -/
def twoThenBreak : State := cap 3 (prep start [] [0xA9, 0x01, 0xAA, 0x00])

theorem witness_BuiltBlocksAreWellFormed :
    1 ≤ twoThenBreak.cfg.maxInsns ∧
    twoThenBreak.buildBlock 0x8000 =
      .done ⟨0x8000, [⟨.ldaImm 0x01, 0x8000⟩, ⟨.tax, 0x8002⟩, ⟨.brk, 0x8003⟩], .exit⟩ ∧
    (cap 2 twoThenBreak).buildBlock 0x8000 =
      .done ⟨0x8000, [⟨.ldaImm 0x01, 0x8000⟩, ⟨.tax, 0x8002⟩], .tooManyInstructions⟩ := by decide

theorem DecodesTo.one {s : State} {a : Word} {d : Descriptor} (h₁ : a ≤ 0xFFF9)
    (h₂ : s.decodeAt a = .done d) (h₃ : d.instr ≠ .brk) :
    DecodesTo s a [d] (a + BitVec.ofNat 16 d.len) := .cons h₁ h₂ h₃ (.nil _)

/-- `LDA #$01`, BREAK, an illegal byte (row 3 of B2 with a byte that must not be decoded). -/
def breakThenIllegal : State := prep start [] [0xA9, 0x01, 0x00, 0x02]

/-- BREAK as the last instruction the cap admits, and before the cap; an illegal byte follows. -/
theorem witness_BlocksStopAtBreakOrCap_break :
    ∀ n ∈ [2, 3], let s := cap n breakThenIllegal
      DecodesTo s 0x8000 [⟨.ldaImm 0x01, 0x8000⟩] 0x8002 ∧ 1 < s.cfg.maxInsns ∧
      (0x8002 : Word) ≤ 0xFFF9 ∧ s.decodeAt 0x8002 = .done ⟨.brk, 0x8002⟩ ∧
      s.decodeAt 0x8003 = .raised (.illegalInstruction 0x8003 0x02) := by
  intro n hn
  fin_cases hn <;>
    exact ⟨DecodesTo.one (by decide) (by decide) (by decide), by decide, by decide, by decide,
      by decide⟩

/-- BREAK as the first instruction, under the least cap. -/
theorem witness_BlocksStopAtBreakOrCap_first :
    DecodesTo breakThenIllegal 0x8002 [] 0x8002 ∧ 0 < breakThenIllegal.cfg.maxInsns ∧
    (0x8002 : Word) ≤ 0xFFF9 ∧ breakThenIllegal.decodeAt 0x8002 = .done ⟨.brk, 0x8002⟩ :=
  ⟨.nil _, by decide, by decide, by decide⟩

/-- BREAK at the last address that can be fetched. -/
theorem witness_BlocksStopAtBreakOrCap_edge :
    DecodesTo start 0xFFF9 [] 0xFFF9 ∧ 0 < start.cfg.maxInsns ∧ (0xFFF9 : Word) ≤ 0xFFF9 ∧
    start.decodeAt 0xFFF9 = .done ⟨.brk, 0xFFF9⟩ :=
  ⟨.nil _, by decide, by decide, by decide⟩

/-- The cap is reached where no further instruction could be fetched. -/
theorem witness_BlocksStopAtBreakOrCap_cap :
    DecodesTo edge 0xFFF8 [⟨.ldaImm 0x11, 0xFFF8⟩] 0xFFFA ∧ 1 ≤ edge.cfg.maxInsns ∧
    [Descriptor.mk (.ldaImm 0x11) 0xFFF8].length = edge.cfg.maxInsns :=
  ⟨DecodesTo.one (by decide) (by decide) (by decide), by decide, by decide⟩

/-- An illegal byte after one instruction. -/
theorem witness_BuildErrorExecutesNothing_illegal :
    let s := cap 2 (prep start [] [0xA9, 0x01, 0x02])
    s.status = .running ∧ s.boundaryCheck = s ∧ DecodesTo s s.pc [⟨.ldaImm 0x01, 0x8000⟩] 0x8002 ∧
    1 < s.cfg.maxInsns ∧ (0x8002 : Word) ≤ 0xFFF9 ∧
    s.decodeAt 0x8002 = .raised (.illegalInstruction 0x8002 0x02) :=
  ⟨rfl, by decide, DecodesTo.one (by decide) (by decide) (by decide), by decide, by decide, by decide⟩

/-- The next address is 0xFFFA after an instruction that ends at 0xFFF9. -/
theorem witness_BuildErrorExecutesNothing_range :
    let s := cap 2 edge
    s.status = .running ∧ s.boundaryCheck = s ∧ DecodesTo s s.pc [⟨.ldaImm 0x11, 0xFFF8⟩] 0xFFFA ∧
    1 < s.cfg.maxInsns ∧ (0xFFF9 : Word) < 0xFFFA :=
  ⟨rfl, by decide, DecodesTo.one (by decide) (by decide) (by decide), by decide, by decide⟩

/-- The first byte is unreadable (B6). -/
theorem witness_BuildErrorExecutesNothing_memory :
    let s := mixed { start with pc := 0x4000 }
    s.status = .running ∧ s.boundaryCheck = s ∧ DecodesTo s s.pc [] 0x4000 ∧ 0 < s.cfg.maxInsns ∧
    (0x4000 : Word) ≤ 0xFFF9 ∧ s.decodeAt 0x4000 = .raised (.memoryTransactionError 0x4000) :=
  ⟨rfl, by decide, .nil _, by decide, by decide, by decide⟩

theorem witness_StepRunsTheDecodedInstruction :
    edge.status = .running ∧ edge.cfg.maxInsns = 1 ∧ edge = edge.boundaryCheck ∧
    decodeBytes [0xA9, 0x11] = .done (.ldaImm 0x11, []) ∧ BytesAt edge edge.pc [0xA9, 0x11] ∧
    edge.pc.toNat + 2 = 0xFFFA := by
  refine ⟨rfl, rfl, by decide, by decide, ⟨?_, ?_, trivial⟩, by decide⟩ <;> decide

/-- The last two instructions of `twoThenBreak`: TAX goes on, BREAK halts. -/
theorem witness_BlockRunsInOrder :
    let u := { twoThenBreak with acc := 0x01, pc := 0x8002 }
    let v := { u with x := 0x01, pc := 0x8003 }
    twoThenBreak.status = .running ∧ twoThenBreak.boundaryCheck = twoThenBreak ∧
    RunsTo twoThenBreak [⟨.ldaImm 0x01, 0x8000⟩, ⟨.tax, 0x8002⟩] v ∧
    exec .brk v = .next { v with status := .halted .debugHalt } :=
  ⟨rfl, by decide, .cons rfl rfl (.cons rfl rfl (.nil _)), rfl⟩

/-- The last instruction of a block goes on, or faults. -/
theorem witness_BlockRunsInOrder_last :
    let s := cap 2 (prep (mixed start) [] [0xAA, 0xAD, 0x00, 0x40])
    let u := { s with x := 0xAA, pc := 0x8001 }
    s.status = .running ∧ s.boundaryCheck = s ∧
    s.buildBlock s.pc =
      .done ⟨0x8000, [⟨.tax, 0x8000⟩, ⟨.ldaAbs 0x4000, 0x8001⟩], .tooManyInstructions⟩ ∧
    RunsTo s [⟨.tax, 0x8000⟩] u ∧ exec (.ldaAbs 0x4000) u = memoryFault u 0x4000 ∧
    (cap 1 s).buildBlock s.pc = .done ⟨0x8000, [⟨.tax, 0x8000⟩], .tooManyInstructions⟩ ∧
    exec .tax (cap 1 s) = .next (cap 1 u) :=
  ⟨rfl, by decide, by decide, .cons rfl rfl (.nil _), rfl, by decide, rfl⟩

theorem witness_BlockStepEndsInOneOfThreeOutcomes :
    edge.status = .running ∧ 1 ≤ edge.cfg.maxInsns := by decide

theorem witness_FaultsRecordTheirStatus :
    (∃ t, step (prep start [] [0x02]) = .fault (.illegalInstruction 0x8000 0x02 t)) ∧
    (∃ t, step { start with pc := 0xFFFA } = .fault (.fetchOutOfRange 0xFFFA t)) ∧
    (∃ t, step (mixed { start with pc := 0x4FFF }) = .fault (.memoryTransactionError 0x4FFF t)) :=
  ⟨⟨_, rfl⟩, ⟨_, rfl⟩, ⟨_, rfl⟩⟩

theorem witness_NotRunningHasNoStep :
    ({ start with status := .halted .shutdown }).status = .halted .shutdown ∧
    ({ start with status := .fault (.fetchOutOfRange 0xFFFA) }).status =
      .fault (.fetchOutOfRange 0xFFFA) := ⟨rfl, rfl⟩

theorem witness_PcAdvancesByTheEncodedLength :
    (∃ t, exec (.ldaImm 1) start = .next t) ∧ (∃ t, exec .brk start = .next t) ∧
    (∃ f, exec (.staAbs 0x6000) (mixed start) = .fault f) := ⟨⟨_, rfl⟩, ⟨_, rfl⟩, ⟨_, rfl⟩⟩

theorem witness_StepKeepsPcInRange :
    (∃ t, step edge = .next t ∧ t.pc = 0xFFFA) ∧
    (∃ t, step (prep { start with pc := 0xFFF9 } [] [0x00]) = .next t ∧ t.status ≠ .running ∧
      t.pc = 0xFFF9) := ⟨⟨_, rfl, by decide⟩, ⟨_, rfl, by decide, by decide⟩⟩

theorem witness_CpuKindHasNoEffect :
    edge.cfg.cpuKind ≠ .mos65xx ∧ (∃ t, step edge = .next t) ∧
    (∃ f, step { edge with pc := 0xFFFA } = .fault f) ∧
    (∃ r, step { edge with status := .halted .debugHalt } = .refused r) :=
  ⟨by decide, ⟨_, rfl⟩, ⟨_, rfl⟩, ⟨_, rfl⟩⟩

/-- Every other bit of `sr` differs: 0xA5 against 0x5E. -/
theorem witness_OnlyInterruptDisableIsRead :
    (0x5E : Byte).getLsbD 2 = edge.sr.getLsbD 2 ∧ (0x5E : Byte) ≠ edge.sr ∧
    (∃ t, step edge = .next t) ∧ (∃ f, step { edge with pc := 0xFFFA } = .fault f) ∧
    (∃ r, step (cap 0 edge) = .refused r) :=
  ⟨by decide, by decide, ⟨_, rfl⟩, ⟨_, rfl⟩, ⟨_, rfl⟩⟩

/-- Two instructions in one block, none of which stores. -/
theorem witness_BlockSizeDoesNotMatter :
    let s := cap 2 twoThenBreak
    let ds : List Descriptor := [⟨.ldaImm 0x01, 0x8000⟩, ⟨.tax, 0x8002⟩]
    s.pending = ⟨false, false, false⟩ ∧ s.buildBlock s.pc = .done ⟨0x8000, ds, .tooManyInstructions⟩ ∧
    (∀ ds₁ d ds₂ u, ds = ds₁ ++ d :: ds₂ → RunsTo s ds₁ u → u.decodeAt d.addr = .done d) ∧
    ∃ t, step s = .next t := by
  refine ⟨rfl, by decide, ?_, ⟨_, rfl⟩⟩
  intro ds₁ d ds₂ u hd hu
  match ds₁, hd with
  | [], hd =>
    cases hu
    obtain ⟨rfl, -⟩ := List.cons.inj hd
    decide
  | [e], hd =>
    obtain ⟨rfl, ht⟩ := List.cons.inj hd
    obtain ⟨rfl, -⟩ := List.cons.inj (show [Descriptor.mk .tax 0x8002] = d :: ds₂ from ht)
    cases hu with
    | cons he _ hu => cases hu; cases he; decide
  | e :: e' :: ds, hd =>
    obtain ⟨-, hd⟩ := List.cons.inj hd
    obtain ⟨-, hd⟩ := List.cons.inj hd
    simp at hd

/-- At the ends of the range of `pc`. -/
theorem witness_RunsWithoutInterruptsEnd :
    edge.status = .running ∧ 1 ≤ edge.cfg.maxInsns ∧ edge.pending = ⟨false, false, false⟩ ∧
    edge.pc ≤ 0xFFFA ∧ ({ edge with pc := 0xFFFA }).pc ≤ 0xFFFA ∧ ({ edge with pc := 0 }).pc ≤ 0xFFFA := by
  decide

/-- With all addresses RAM every address can be read and written. -/
theorem allRam_entry (a : Word) : State.entry start a = .ram a := by
  have h : (⟨0x0000, 0xFFFF, .ram, 0x0000, 0⟩ : Region).covers a = true := by
    simp only [Region.covers, Bool.and_eq_true, decide_eq_true_eq, BitVec.le_def]
    have := a.isLt
    exact ⟨Nat.zero_le _, Nat.le_of_lt_succ this⟩
  show (if (⟨0x0000, 0xFFFF, .ram, 0x0000, 0⟩ : Region).covers a = true then
    (⟨0x0000, 0xFFFF, .ram, 0x0000, 0⟩ : Region).entry a else _) = _
  rw [if_pos h]
  simp [Region.entry, Region.cellOf]

theorem witness_FullyMappedNeverMemoryFaults : start.FullyMapped ∧ start.status = .running :=
  ⟨fun a => by unfold State.Writable; rw [allRam_entry]; simp, rfl⟩

theorem witness_AgentStepsKeepMemoryCanonical :
    edge.Inv ∧ (∃ t, agentStep .blockStep edge = .next t) ∧
    (∃ f, agentStep .blockStep { edge with pc := 0xFFFF } = .fault f) ∧
    (∃ t, agentStep (.hostLoad 0xFFFF 0x01) edge = .next t) ∧
    (∃ t, agentStep (.debugWrite 5 0xFF) edge = .next t) :=
  ⟨by unfold State.Inv; decide, ⟨_, rfl⟩, ⟨_, rfl⟩, ⟨_, rfl⟩, ⟨_, rfl⟩⟩

theorem witness_CanonicalMemoriesAreDeterminedByTheirBytes :
    Memory.wf [(0, 1), (65535, 2)] = true ∧
    Memory.writeCell [(0, 1)] 65535 2 = [(0, 1), (65535, 2)] ∧
    Memory.wf [(0, 1), (65535, 0)] = false ∧ Memory.wf [(65535, 2), (0, 1)] = false := by decide

/-- Every clause of reads and writes, at the ends of the regions of `mixed`. -/
theorem witness_ByteReadsAndWrites :
    (mixed start).Inv ∧ (mixed start).entry 0x3FFF = .ram 0x07FF ∧
    (mixed start).entry 0x07FF = .ram 0x07FF ∧ (mixed start).entry 0x4000 = .unmapped ∧
    (mixed start).entry 0x4FFF = .unmapped ∧ (mixed start).entry 0x5000 = .rom 0x5000 .ignore ∧
    (mixed start).entry 0x6FFF = .rom 0x6FFF .reject ∧ (mixed start).entry 0xFFFF = .ram 0xFFFF := by
  unfold State.Inv; decide

/-- Every clause of the map of R62 at the ends of its ranges; copies with gaps leave holes. -/
theorem witness_Mapper0MapFollowsTheSpec :
    let gaps : LowRam := ⟨0x0100, 0x0200, 0x1000, 6⟩
    gaps.wellFormed = true ∧
    MemMap.entry (.mapper0 gaps .reject) 0x6000 = .ram 0x6000 ∧
    MemMap.entry (.mapper0 gaps .reject) 0x7FFF = .ram 0x7FFF ∧
    MemMap.entry (.mapper0 gaps .reject) 0x8000 = .rom 0x8000 .reject ∧
    MemMap.entry (.mapper0 gaps .reject) 0xFFFF = .rom 0xFFFF .reject ∧
    5 < gaps.copies ∧ 0x01FF < gaps.size ∧ MemMap.entry (.mapper0 gaps .reject) 0x52FF = .ram 0x02FF ∧
    (∀ k, k < gaps.copies → ¬ (gaps.first + k * gaps.stride ≤ 0x5300 ∧
      0x5300 < gaps.first + k * gaps.stride + gaps.size)) ∧
    MemMap.entry (.mapper0 gaps .reject) 0x5300 = .unmapped ∧
    MemMap.entry (.mapper0 gaps .reject) 0x00FF = .unmapped := by decide

/-- A step that goes on past an ignored store to ROM, and one that a rejected store ends. -/
theorem witness_Mapper0RomNeverChanges :
    let s (w : OnWrite) := mapper0 w (prep start [] [0x8D, 0x00, 0x80])
    lowRam.wellFormed = true ∧ (∀ w, (s w).cfg.memMap = .mapper0 lowRam w) ∧
    (∃ t, step (s .ignore) = .next t ∧ t.memRead1 0x8000 = .done 0x8D) ∧
    (∃ f, step (s .reject) = .fault f ∧ f.after.memRead1 0x8000 = .done 0x8D) :=
  ⟨by decide, fun _ => rfl, ⟨_, rfl, by decide⟩, ⟨_, rfl, by decide⟩⟩

/-- `mixed` with pointers: at 0x00FF one to 0x1234, at 0x0010 one to 0x5000, at 0x0012 one to 0x6000. -/
def pointers : State :=
  poke (mixed { start with x := 0x01, y := 0x01 })
    [(0x00FF, 0x34), (0x0100, 0x12), (0x0011, 0x50), (0x0013, 0x60), (0x1234, 0x77)]

/-- The zero page without memory behind 0x0010 and 0x0021. -/
def holes : State :=
  { start with
    x := 0x01
    cfg := { start.cfg with memMap :=
      ⟨0x0010, 0x0010, .unmapped, 0, 0⟩ :: ⟨0x0021, 0x0021, .unmapped, 0, 0⟩ :: start.cfg.memMap } }

theorem pointerAt_pageEnd : PointerAt pointers 0xFF 0x1234 :=
  ⟨0x34, 0x12, by decide, by decide, by decide⟩

theorem pointerFails_low : PointerFails holes 0x10 0x0010 := .inl (by decide)

theorem pointerFails_high : PointerFails holes 0x20 0x0021 := .inr ⟨0x00, by decide, by decide⟩

theorem witness_WordReadsAreLittleEndian :
    pointers.memRead2 0x00FF = .done 0x1234 ∧ holes.memRead2 0x0010 = .raised 0x0010 ∧
    holes.memRead2 0x0020 = .raised 0x0021 := by decide

/-- Every memory mode has an effective address at the ends of its range, and the two indirect modes a
pointer that cannot be read. -/
theorem witness_ResolverFollowsTheRules :
    let s := { pointers with x := 0xFF, y := 0xFF }
    EffectiveAddress s .zeroPage 0xFF 0x00FF ∧ EffectiveAddress s .zeroPageX 0xFF 0x01FE ∧
    EffectiveAddress (strict s) .zeroPageX 0xFF 0x00FE ∧ EffectiveAddress s .zeroPageY 0xFF 0x01FE ∧
    EffectiveAddress (strict s) .zeroPageY 0xFF 0x00FE ∧ EffectiveAddress s .absolute 0xFFFF 0xFFFF ∧
    EffectiveAddress s .absoluteX 0xFFFF 0x00FE ∧ EffectiveAddress s .absoluteY 0xFF01 0x0000 ∧
    EffectiveAddress pointers .indirectX 0xFE 0x1234 ∧
    EffectiveAddress s .indirectX 0x00 0x1234 ∧ EffectiveAddress pointers .indirectY 0xFF 0x1235 ∧
    PointerReadFails holes .indirectX 0x0F 0x0010 ∧ PointerReadFails holes .indirectX 0x1F 0x0021 ∧
    PointerReadFails holes .indirectY 0x10 0x0010 ∧ PointerReadFails holes .indirectY 0x20 0x0021 ∧
    AddressingMode.zeroPage.operandBytes = 1 ∧ (0x00FF : Word).toNat < 256 ∧
    1 ≠ AddressingMode.absolute.operandBytes := by
  refine ⟨rfl, ⟨fun _ => rfl, nofun⟩, ⟨nofun, fun _ => rfl⟩, ⟨fun _ => rfl, nofun⟩,
    ⟨nofun, fun _ => rfl⟩, rfl, rfl, rfl, pointerAt_pageEnd,
    ⟨0x34, 0x12, by decide, by decide, by decide⟩, ⟨0x1234, pointerAt_pageEnd, by decide⟩,
    pointerFails_low, pointerFails_high, pointerFails_low, pointerFails_high, by decide, by decide,
    by decide⟩

/-- Loads: an effective address of each mode that reads, one that cannot be read, and a pointer that cannot.
The mode and the operand decide, so the witnesses serve LDA, LDX and LDY. -/
theorem witness_loads_complete :
    (EffectiveAddress pointers .zeroPage 0xFF 0x00FF ∧ pointers.memRead1 0x00FF = .done 0x34) ∧
    (EffectiveAddress pointers .zeroPageX 0xFF 0x0100 ∧ pointers.memRead1 0x0100 = .done 0x12) ∧
    (EffectiveAddress pointers .zeroPageY 0xFF 0x0100 ∧ pointers.memRead1 0x0100 = .done 0x12) ∧
    (EffectiveAddress pointers .absolute 0xFFFF 0xFFFF ∧ pointers.memRead1 0xFFFF = .done 0x00) ∧
    (EffectiveAddress pointers .absoluteX 0xFFFF 0x0000 ∧ pointers.memRead1 0x0000 = .done 0x00) ∧
    (EffectiveAddress pointers .absoluteY 0xFFFF 0x0000 ∧ pointers.memRead1 0x0000 = .done 0x00) ∧
    (EffectiveAddress pointers .indirectX 0xFE 0x1234 ∧ pointers.memRead1 0x1234 = .done 0x77) ∧
    (EffectiveAddress pointers .indirectY 0xFF 0x1235 ∧ pointers.memRead1 0x1235 = .done 0x00) := by
  refine ⟨⟨rfl, by decide⟩, ⟨⟨fun _ => rfl, nofun⟩, by decide⟩, ⟨⟨fun _ => rfl, nofun⟩, by decide⟩,
    ⟨rfl, by decide⟩, ⟨rfl, by decide⟩, ⟨rfl, by decide⟩, ⟨pointerAt_pageEnd, by decide⟩,
    ⟨⟨0x1234, pointerAt_pageEnd, by decide⟩, by decide⟩⟩

theorem witness_LdaLoadsTheAccumulator :
    (EffectiveAddress (mixed start) .absolute 0x4FFF 0x4FFF ∧
      (mixed start).memRead1 0x4FFF = .raised 0x4FFF) ∧
    (EffectiveAddress holes .zeroPage 0x10 0x0010 ∧ holes.memRead1 0x0010 = .raised 0x0010) ∧
    PointerReadFails holes .indirectX 0x0F 0x0010 ∧ PointerReadFails holes .indirectY 0x20 0x0021 :=
  ⟨⟨rfl, by decide⟩, ⟨rfl, by decide⟩, pointerFails_low, pointerFails_high⟩

theorem witness_LdxLoadsX :
    EffectiveAddress { holes with y := 0x01 } .zeroPageY 0x0F 0x0010 ∧
    ({ holes with y := 0x01 }).memRead1 0x0010 = .raised 0x0010 ∧
    EffectiveAddress (mixed start) .absoluteY 0x3FF0 0x4000 ∧
    (mixed start).memRead1 0x4000 = .raised 0x4000 :=
  ⟨⟨fun _ => rfl, nofun⟩, by decide, rfl, by decide⟩

theorem witness_LdyLoadsY :
    EffectiveAddress holes .zeroPageX 0x0F 0x0010 ∧ holes.memRead1 0x0010 = .raised 0x0010 ∧
    EffectiveAddress (mixed start) .absoluteX 0x3FFC 0x4000 ∧
    (mixed start).memRead1 0x4000 = .raised 0x4000 :=
  ⟨⟨fun _ => rfl, nofun⟩, by decide, rfl, by decide⟩

/-- Stores: RAM, both kinds of ROM, a hole, and a pointer that cannot be read. -/
theorem witness_StaStoresTheAccumulator :
    pointers.Inv ∧
    (EffectiveAddress pointers .indirectX 0xFE 0x1234 ∧ pointers.entry 0x1234 = .ram 0x0234) ∧
    (EffectiveAddress pointers .indirectX 0x0F 0x5000 ∧ pointers.entry 0x5000 = .rom 0x5000 .ignore) ∧
    (EffectiveAddress pointers .indirectY 0x12 0x6001 ∧ pointers.entry 0x6001 = .rom 0x6001 .reject) ∧
    (EffectiveAddress pointers .absolute 0x4000 0x4000 ∧ pointers.entry 0x4000 = .unmapped) ∧
    holes.Inv ∧ PointerReadFails holes .indirectX 0x0F 0x0010 ∧
    PointerReadFails holes .indirectY 0x20 0x0021 := by
  refine ⟨by unfold State.Inv; decide, ⟨pointerAt_pageEnd, by decide⟩,
    ⟨⟨0x00, 0x50, by decide, by decide, by decide⟩, by decide⟩,
    ⟨⟨0x6000, ⟨0x00, 0x60, by decide, by decide, by decide⟩, by decide⟩, by decide⟩,
    ⟨rfl, by decide⟩, by unfold State.Inv; decide, pointerFails_low, pointerFails_high⟩

theorem witness_StxStoresX :
    pointers.Inv ∧ EffectiveAddress pointers .zeroPageY 0xFF 0x0100 ∧
    pointers.entry 0x0100 = .ram 0x0100 ∧ EffectiveAddress pointers .absolute 0x5FFF 0x5FFF ∧
    pointers.entry 0x5FFF = .rom 0x5FFF .ignore ∧ EffectiveAddress holes .zeroPage 0x10 0x0010 ∧
    holes.entry 0x0010 = .unmapped :=
  ⟨by unfold State.Inv; decide, ⟨fun _ => rfl, nofun⟩, by decide, rfl, by decide, rfl, by decide⟩

theorem witness_StyStoresY :
    pointers.Inv ∧ EffectiveAddress pointers .zeroPageX 0xFF 0x0100 ∧
    pointers.entry 0x0100 = .ram 0x0100 ∧ EffectiveAddress pointers .absolute 0x6FFF 0x6FFF ∧
    pointers.entry 0x6FFF = .rom 0x6FFF .reject ∧ EffectiveAddress holes .zeroPageX 0x0F 0x0010 ∧
    holes.entry 0x0010 = .unmapped :=
  ⟨by unfold State.Inv; decide, ⟨fun _ => rfl, nofun⟩, by decide, rfl, by decide,
    ⟨fun _ => rfl, nofun⟩, by decide⟩

theorem witness_TransferSequences :
    (∃ t u, exec .tax start = .next t ∧ exec .txa t = .next u) ∧
    (∃ t u, exec .txa start = .next t ∧ exec .tay t = .next u) ∧
    (∃ t u, exec .tya start = .next t ∧ exec .tya t = .next u) :=
  ⟨⟨_, _, rfl, rfl⟩, ⟨_, _, rfl, rfl⟩, ⟨_, _, rfl, rfl⟩⟩

theorem witness_BreakHaltsForDebug : start.cfg.onBreak = .haltForDebug := rfl

theorem witness_BreakShutsDownWithReport :
    ({ start with cfg := { start.cfg with onBreak := .shutdownWithDump } }).cfg.onBreak =
      .shutdownWithDump := rfl

theorem witness_EachMnemonicWritesItsOwnRegister :
    (∃ t, exec (.ldaImm 1) start = .next t) ∧ (∃ t, exec (.ldxImm 1) start = .next t) ∧
    (∃ t, exec (.ldyImm 1) start = .next t) ∧ (∃ t, exec (.staZp 1) start = .next t) ∧
    (∃ t, exec .brk start = .next t) := ⟨⟨_, rfl⟩, ⟨_, rfl⟩, ⟨_, rfl⟩, ⟨_, rfl⟩, ⟨_, rfl⟩⟩

/-- A store through a pointer into a mirror, and an address outside its cell. -/
theorem witness_StoresLeaveOtherBytesAlone :
    resolve (Instr.staIndY 0xFF).mode (Instr.staIndY 0xFF).operand pointers = .done (.addr 0x1235) ∧
    (∃ t, exec (.staIndY 0xFF) pointers = .next t) ∧ ¬ pointers.SameCell 0x1235 0x1236 := by
  refine ⟨by decide, ⟨_, rfl⟩, ?_⟩
  rintro ⟨c, h₁, h₂⟩
  rw [show (pointers.entry 0x1235).readCell? = some 0x0235 by decide] at h₁
  rw [show (pointers.entry 0x1236).readCell? = some 0x0236 by decide] at h₂
  cases h₁
  cases h₂

theorem witness_NoStepWritesSr :
    (∃ t, step edge = .next t) ∧ (∃ f, step { edge with pc := 0xFFFA } = .fault f) :=
  ⟨⟨_, rfl⟩, ⟨_, rfl⟩⟩

/-- A step without and a step with a delivery. -/
theorem witness_OnlyDeliveryMovesSpAndPending :
    (∃ t, step edge = .next t ∧ t.sp = edge.sp) ∧
    (∃ t, step (prep { start with sp := 0x01, pending := ⟨true, false, true⟩ } vectors [0xAA]) = .next t ∧
      t.sp = 0xFF) := ⟨⟨_, rfl, rfl⟩, ⟨_, rfl, by decide⟩⟩

theorem witness_BoundaryCheckPriority :
    ({ start with pending := ⟨true, true, true⟩ }).pending.reset = true ∧
    ({ start with pending := ⟨false, true, true⟩ }).pending.nmi = true ∧
    (({ start with pending := ⟨false, false, true⟩, sr := 0xFB }).pending.irq = true ∧
      (0xFB : Byte).getLsbD 2 = false) ∧ (0x04 : Byte).getLsbD 2 = true ∧
    start.pending.irq = false := by decide

/-- Both pushes go to the ends of the push area, the vector is read after them. -/
theorem witness_DeliveryPushesAndVectors :
    let s := poke { start with pc := 0xBEEF, sp := 0x00 } vectors
    ∃ s₁ s₂, s.memWrite1 (firstPush s) (pushedHi s) = .done s₁ ∧
      s₁.memWrite1 (secondPush s) (pushedLo s) = .done s₂ ∧
      PointerAt s₂ (vectorAddress .irq) 0xA000 ∧ firstPush s = 0x0000 ∧ secondPush s = 0x00FF ∧
      pushedHi s = 0xBE ∧ pushedLo s = 0xEF :=
  ⟨_, _, rfl, rfl, ⟨0x00, 0xA0, by decide, by decide, by decide⟩, by decide, by decide, by decide,
    by decide⟩

theorem witness_DeliveredBytesReadBack :
    let s := poke { start with pc := 0x1234 } vectors
    s.Inv ∧ s.entry (firstPush s) = .ram 0x00FD ∧ s.entry (secondPush s) = .ram 0x00FC ∧
    (0x00FD : Word) ≠ 0x00FC ∧
    (∀ p, (p = vectorAddress .nmi ∨ p = vectorAddress .nmi + 1) →
      (s.entry (BitVec.ofNat 16 p)).readCell? ≠ some 0x00FD ∧
      (s.entry (BitVec.ofNat 16 p)).readCell? ≠ some 0x00FC) ∧
    PointerAt s (vectorAddress .nmi) 0x9000 := by
  refine ⟨by unfold State.Inv; decide, by decide, by decide, by decide, ?_,
    ⟨0x00, 0x90, by decide, by decide, by decide⟩⟩
  rintro p (rfl | rfl) <;> decide

/-- The first push fails; the second fails; the vector's low or high byte cannot be read. -/
theorem witness_AbortedDeliveryKeepsRegistersAndPending :
    ({ holes with sp := 0x10 }).memWrite1 (firstPush { holes with sp := 0x10 })
      (pushedHi holes) = .raised 0x0010 ∧
    (∃ s₁, ({ holes with sp := 0x11 }).memWrite1 (firstPush { holes with sp := 0x11 })
        (pushedHi holes) = .done s₁ ∧
      s₁.memWrite1 (secondPush { holes with sp := 0x11 }) (pushedLo holes) = .raised 0x0010) ∧
    (let s := { start with cfg := { start.cfg with memMap :=
        ⟨0xFFFD, 0xFFFE, .unmapped, 0, 0⟩ :: start.cfg.memMap } }
     ∃ s₁ s₂, s.memWrite1 (firstPush s) (pushedHi s) = .done s₁ ∧
      s₁.memWrite1 (secondPush s) (pushedLo s) = .done s₂ ∧
      PointerFails s₂ (vectorAddress .reset) 0xFFFD ∧ PointerFails s₂ (vectorAddress .irq) 0xFFFE) :=
  ⟨by decide, ⟨_, rfl, by decide⟩, _, _, rfl, rfl, .inr ⟨0x00, by decide, by decide⟩,
    .inl (by decide)⟩

theorem deliveryPremises_of_memMap {s : State} (h : s.cfg.memMap = start.cfg.memMap) :
    s.DeliveryPremises := by
  have he : ∀ a, s.entry a = .ram a := fun a => by
    rw [← allRam_entry a]; unfold State.entry; rw [h]
  exact ⟨fun a _ => by unfold State.Readable; rw [he]; simp,
    fun p => by unfold State.Writable; rw [he]; simp⟩

theorem witness_PowerOnDeliversReset :
    State.reset.pending.reset = true ∧ State.reset.DeliveryPremises :=
  ⟨rfl, deliveryPremises_of_memMap rfl⟩

theorem witness_ResetThenNmiAreDelivered :
    let s := prep { start with pending := ⟨true, true, true⟩ } vectors [0xA9, 0x01]
    s.pending = ⟨true, true, true⟩ ∧ s.DeliveryPremises ∧ ∃ t, step s = .next t :=
  ⟨rfl, deliveryPremises_of_memMap rfl, ⟨_, rfl⟩⟩

theorem witness_DebugPortStoresRawValues :
    (0 ≤ 5 ∧ ∃ t, start.dbgWrite 0 0xFFFF = .next t) ∧ ((0x00FF : Word).toNat < 256 ∧
      ∃ t, ({ start with status := .halted .debugHalt }).dbgWrite 5 0x00FF = .next t) ∧
    start.dbgWrite 6 0 = .refused (.debugIndex 6) := ⟨⟨by decide, ⟨_, rfl⟩⟩, ⟨by decide, ⟨_, rfl⟩⟩, rfl⟩

end Sys2Proof.Tests
end

/-! ### Illegal opcode bytes (spec/30_encoding.md R88, R89, R92, R98) -/

namespace Sys2Proof

open Machine Claims

theorem decodeOpcode_eq_none_iff_not_mem_opcodeTable {op : Byte} :
    decodeOpcode op = none ↔ op ∉ opcodeTable.map Prod.fst := by
  simp only [decodeOpcode, Option.map_eq_none_iff, List.find?_eq_none, List.mem_map, not_exists,
    not_and, beq_iff_eq]

/-- The ranges of R92 are the complement of the opcode column of R89. The converse direction treats the
three parts of the table apart, each with the rows of that part only: the arithmetic over all 36 rows at
once is slow. -/
theorem illegalOpcode_iff_not_mem_opcodeTable {op : Byte} :
    IllegalOpcode op ↔ op ∉ opcodeTable.map Prod.fst := by
  simp only [IllegalOpcode, opcodeTable, List.map_append, List.map_cons, List.map_nil,
    List.mem_append, List.mem_cons, List.not_mem_nil, or_false, not_or]
  constructor
  · intro h
    refine ⟨⟨?_, ?_⟩, ?_⟩ <;> bv_omega
  · rintro ⟨⟨low, mid⟩, high⟩
    rcases Nat.lt_or_ge op.toNat 0x96 with hlow | hlow
    · clear mid high
      bv_omega
    · clear low
      rcases Nat.lt_or_ge op.toNat 0xAA with hmid | hmid
      · clear high
        bv_omega
      · clear mid
        bv_omega

theorem decodeOpcode_eq_none_iff_illegalOpcode {op : Byte} :
    decodeOpcode op = none ↔ IllegalOpcode op :=
  decodeOpcode_eq_none_iff_not_mem_opcodeTable.trans illegalOpcode_iff_not_mem_opcodeTable.symm

namespace Machine

variable {s : State} {a : Word}

/-- Once the row is known, operand assembly (R85) can fail only in a memory access. -/
theorem State.readOperand_raised {form : Form} {e : FaultCause}
    (h : s.readOperand a form = .raised e) : ∃ p, e = .memoryTransactionError p := by
  cases form with
  | f1 i => cases h
  | f2 make =>
    simp only [State.readOperand] at h
    split at h <;> cases h
    exact ⟨_, rfl⟩
  | f3 make =>
    simp only [State.readOperand] at h
    split at h
    · cases h
      exact ⟨_, rfl⟩
    · split at h <;> cases h
      exact ⟨_, rfl⟩

/-- `IllegalInstruction` comes from the opcode lookup alone: the other checks of R88 raise other errors. -/
theorem State.decodeAt_eq_illegalInstruction_iff {a' : Word} {b : Byte} :
    s.decodeAt a = .raised (.illegalInstruction a' b) ↔
      a' = a ∧ s.memRead1 a = .done b ∧ decodeOpcode b = none := by
  constructor
  · intro h
    unfold State.decodeAt at h
    split at h
    · cases h
    next op hread =>
    split at h
    · next hop =>
      cases h
      exact ⟨rfl, hread, hop⟩
    · split at h
      · cases h
      · obtain ⟨p, hp⟩ := State.readOperand_raised h
        cases hp
  · rintro ⟨rfl, hread, hop⟩
    simp only [State.decodeAt, hread, hop]

end Machine

/-- Settles O4: the opcode lookup is the only source of `IllegalInstruction`, and it fails exactly at the
bytes of R92. -/
theorem illegalOpcodesAreReported : Obligations.IllegalOpcodesAreReported := by
  intro s a b
  have hraised (a' : Word) : s.decodeAt a = .raised (.illegalInstruction a' b) ↔
      a' = a ∧ s.memRead1 a = .done b ∧ IllegalOpcode b := by
    rw [State.decodeAt_eq_illegalInstruction_iff, decodeOpcode_eq_none_iff_illegalOpcode]
  exact ⟨fun hread hop => (hraised a).2 ⟨rfl, hread, hop⟩, fun a' => (hraised a').1⟩

end Sys2Proof

/-! ### Addressing modes on integers (spec/40_addressing_modes.md R101 to R110) -/

namespace Sys2Proof

namespace Machine

open Claims

variable {s : State}

/-- The address after an integer address, as R53 forms it. -/
theorem word_ofNat_add_one (p : Nat) : BitVec.ofNat 16 p + 1 = BitVec.ofNat 16 (p + 1) :=
  (BitVec.ofNat_add p 1).symm

/-- R53 on integers: a 16-bit read that completes finds a pointer. -/
theorem State.memRead2_eq_done_iff_pointerAt {p : Nat} {w : Word} :
    s.memRead2 (BitVec.ofNat 16 p) = .done w ↔ PointerAt s p w := by
  simp only [State.memRead2, PointerAt, word_ofNat_add_one]
  cases s.memRead1 (BitVec.ofNat 16 p) with
  | raised e => simp
  | done lo =>
    cases s.memRead1 (BitVec.ofNat 16 (p + 1)) with
    | raised e => simp
    | done hi =>
      have hvalue : wordOfBytes hi lo = w ↔ w.toNat = hi.toNat * 256 + lo.toNat := by
        rw [← BitVec.toNat_inj, wordOfBytes_toNat, eq_comm]
      simp [hvalue]

/-- R53 on integers: a 16-bit read fails at the first of its two addresses that cannot be read. -/
theorem State.memRead2_eq_raised_iff_pointerFails {p : Nat} {a : Word} :
    s.memRead2 (BitVec.ofNat 16 p) = .raised a ↔ PointerFails s p a := by
  simp only [State.memRead2, PointerFails, word_ofNat_add_one]
  cases s.memRead1 (BitVec.ofNat 16 p) with
  | raised e => simp
  | done lo => cases s.memRead1 (BitVec.ofNat 16 (p + 1)) <;> simp

/-- R103, R104 on integers, for both values of `ZP_INDEX_POLICY`. -/
theorem zeroPageIndexed_eq_iff_zpIndexed {base index : Byte} {ea : Word} :
    zeroPageIndexed s.cfg.zpIndexPolicy base index = ea ↔ ZpIndexed s base.toNat index ea := by
  have hbase := base.isLt
  have hindex := index.isLt
  unfold zeroPageIndexed ZpIndexed
  rw [← BitVec.toNat_inj]
  cases s.cfg.zpIndexPolicy with
  | rawAdd =>
    simp only [BitVec.toNat_add, zext16_toNat, true_implies, reduceCtorEq, false_implies, and_true]
    omega
  | strictWrap =>
    simp only [BitVec.toNat_add, zext16_toNat, true_implies, reduceCtorEq, false_implies, true_and]
    omega

/-- R106, R107, R109 on integers: the indexed sum is modulo 65536. -/
theorem add_zext16_eq_iff {base ea : Word} {index : Byte} :
    base + zext16 index = ea ↔ ea.toNat = (base.toNat + index.toNat) % 65536 := by
  rw [← BitVec.toNat_inj, BitVec.toNat_add, zext16_toNat, eq_comm]

/-- The zero-page address of a byte is its value. -/
theorem zext16_eq_ofNat_toNat (b : Byte) : zext16 b = BitVec.ofNat 16 b.toNat :=
  (BitVec.ofNat_toNat 16 b).symm

variable {mode : AddressingMode} {w : Word}

/-- An operand of one byte is its own low byte. -/
theorem loByte_toNat_of_lt (hw : w.toNat < 256) : (loByte w).toNat = w.toNat := by
  rw [loByte_toNat, Nat.mod_eq_of_lt hw]

/-- R102 to R109: the resolver answers an effective address exactly when it is the one of the rules. A
mode with a one-byte operand reads the low byte only, hence the premise. -/
theorem resolve_eq_addr_iff_effectiveAddress (hw : mode.operandBytes = 1 → w.toNat < 256)
    {ea : Word} : resolve mode w s = .done (.addr ea) ↔ EffectiveAddress s mode w.toNat ea := by
  cases mode with
  | immediate | implied => simp [resolve, EffectiveAddress]
  | zeroPage =>
    simp [resolve, EffectiveAddress, ← BitVec.toNat_inj, loByte_toNat_of_lt (hw rfl), eq_comm]
  | zeroPageX | zeroPageY =>
    simp [resolve, EffectiveAddress, zeroPageIndexed_eq_iff_zpIndexed, loByte_toNat_of_lt (hw rfl)]
  | absolute => simp [resolve, EffectiveAddress, ← BitVec.toNat_inj, eq_comm]
  | absoluteX | absoluteY => simp [resolve, EffectiveAddress, add_zext16_eq_iff]
  | indirectX =>
    simp only [resolve, EffectiveAddress, zext16_eq_ofNat_toNat, ← State.memRead2_eq_done_iff_pointerAt,
      BitVec.toNat_add, loByte_toNat_of_lt (hw rfl)]
    cases s.memRead2 _ <;> simp
  | indirectY =>
    simp only [resolve, EffectiveAddress, ← add_zext16_eq_iff, ← State.memRead2_eq_done_iff_pointerAt,
      zext16_eq_ofNat_toNat (loByte w), loByte_toNat_of_lt (hw rfl)]
    cases s.memRead2 _ <;> simp

/-- R100, R108, R109: the resolver fails exactly when its pointer read does, at the same address. -/
theorem resolve_eq_raised_iff_pointerReadFails (hw : mode.operandBytes = 1 → w.toNat < 256)
    {a : Word} : resolve mode w s = .raised a ↔ PointerReadFails s mode w.toNat a := by
  cases mode with
  | indirectX =>
    simp only [resolve, PointerReadFails, zext16_eq_ofNat_toNat,
      ← State.memRead2_eq_raised_iff_pointerFails, BitVec.toNat_add, loByte_toNat_of_lt (hw rfl)]
    cases s.memRead2 _ <;> simp
  | indirectY =>
    simp only [resolve, PointerReadFails, ← State.memRead2_eq_raised_iff_pointerFails,
      zext16_eq_ofNat_toNat (loByte w), loByte_toNat_of_lt (hw rfl)]
    cases s.memRead2 _ <;> simp
  | _ => simp [resolve, PointerReadFails] -- no other mode reads memory

end Machine

/-! ### Loads (spec/41_loads.md R120 to R140) -/

/-- R81: an instruction with a one-byte operand is its opcode byte and that operand. -/
theorem encode_of_one_operandByte {i : Instr} {b : Byte} (hlen : i.mode.operandBytes = 1)
    (hop : i.operand = zext16 b) : encode i = [i.opcode, b] := by
  simp [encode, Instr.operandByteList, hlen, hop]

/-- R81, R85: a two-byte operand follows the opcode byte, least significant byte first. -/
theorem encode_of_two_operandBytes {i : Instr} {w : Word} (hlen : i.mode.operandBytes = 2)
    (hop : i.operand = w) : encode i = [i.opcode, Claims.lowOf w, Claims.highOf w] := by
  simp [encode, Instr.operandByteList, hlen, hop, Claims.lowOf, Claims.highOf, ← loByte_toNat,
    ← hiByte_toNat]

namespace Machine

open Claims

/-- A load through an addressing mode (R120, R121, R203), whatever its register: encoding apart, it does
what `LoadRule` says, because the resolver finds the effective address and fails where the rules do. -/
theorem loadRule_of_encode {i : Instr} {bytes : List Byte} (r : Reg)
    (haction : i.mnemonic.action = .load r) (henc : encode i = bytes)
    (hw : i.mode.operandBytes = 1 → i.operand.toNat < 256) :
    LoadRule i bytes i.mode i.operand.toNat (BitVec.ofNat 16 i.len) (fun s v => s.setReg r v) := by
  have hload (s : State) : exec i s = load r i.mode i.operand s := by rw [exec_eq_action, haction]
  refine ⟨henc, fun s => ⟨fun ea v hea hread => ?_, fun ea a hea hread => ?_, fun a hptr => ?_⟩⟩
  · rw [hload, load, (resolve_eq_addr_iff_effectiveAddress hw).2 hea]
    simp [hread, State.advance, Instr.len]
  · rw [hload, load, (resolve_eq_addr_iff_effectiveAddress hw).2 hea]
    simp only [hread]
    rfl
  · rw [hload, load, (resolve_eq_raised_iff_pointerReadFails hw).2 hptr]
    rfl

/-- A load with a one-byte address operand: the zero-page and the indirect modes. -/
theorem loadRule_of_byte {i : Instr} {b : Byte} (r : Reg) (haction : i.mnemonic.action = .load r)
    (hlen : i.mode.operandBytes = 1) (hop : i.operand = zext16 b) :
    LoadRule i [i.opcode, b] i.mode b.toNat 2 (fun s v => s.setReg r v) := by
  have hvalue : i.operand.toNat = b.toNat := by rw [hop, zext16_toNat]
  have hrule := loadRule_of_encode r haction (encode_of_one_operandByte hlen hop)
    fun _ => hvalue ▸ b.isLt
  rwa [hvalue, Instr.len, hlen] at hrule

/-- A load with a two-byte address operand: the absolute modes. -/
theorem loadRule_of_word {i : Instr} {w : Word} (r : Reg) (haction : i.mnemonic.action = .load r)
    (hlen : i.mode.operandBytes = 2) (hop : i.operand = w) :
    LoadRule i [i.opcode, lowOf w, highOf w] i.mode w.toNat 3 (fun s v => s.setReg r v) := by
  have hrule := loadRule_of_encode r haction (encode_of_two_operandBytes hlen hop)
    fun h => by rw [hlen] at h; cases h
  rwa [hop, Instr.len, hlen] at hrule

/-- An immediate load accesses no memory, so it completes on every state (R120). -/
theorem exec_of_immediateLoad {i : Instr} {b : Byte} (r : Reg)
    (haction : i.mnemonic.action = .load r) (hmode : i.mode = .immediate)
    (hop : i.operand = zext16 b) (s : State) : exec i s = .next ((s.setReg r b).advance 2) := by
  rw [exec_eq_action, haction, hmode, hop]
  simp [load, resolve, AddressingMode.operandBytes]

end Machine

open Machine

/-- Settles O28: each LDA is the shared load into `acc`, immediate or through its addressing mode. -/
theorem ldaLoadsTheAccumulator : Obligations.LdaLoadsTheAccumulator := fun _ _ =>
  ⟨encode_of_one_operandByte rfl rfl, exec_of_immediateLoad .acc rfl rfl rfl,
    loadRule_of_byte .acc rfl rfl rfl, loadRule_of_byte .acc rfl rfl rfl,
    loadRule_of_word .acc rfl rfl rfl, loadRule_of_word .acc rfl rfl rfl,
    loadRule_of_word .acc rfl rfl rfl,
    loadRule_of_byte .acc rfl rfl rfl, loadRule_of_byte .acc rfl rfl rfl⟩

/-- Settles O29: each LDX is the shared load into `x`, immediate or through its addressing mode. -/
theorem ldxLoadsX : Obligations.LdxLoadsX := fun _ _ =>
  ⟨encode_of_one_operandByte rfl rfl, exec_of_immediateLoad .x rfl rfl rfl,
    loadRule_of_byte .x rfl rfl rfl, loadRule_of_byte .x rfl rfl rfl,
    loadRule_of_word .x rfl rfl rfl, loadRule_of_word .x rfl rfl rfl⟩

/-- Settles O30: each LDY is the shared load into `y`, immediate or through its addressing mode. -/
theorem ldyLoadsY : Obligations.LdyLoadsY := fun _ _ =>
  ⟨encode_of_one_operandByte rfl rfl, exec_of_immediateLoad .y rfl rfl rfl,
    loadRule_of_byte .y rfl rfl rfl, loadRule_of_byte .y rfl rfl rfl,
    loadRule_of_word .y rfl rfl rfl, loadRule_of_word .y rfl rfl rfl⟩

end Sys2Proof

/-! ### Stores (spec/42_stores.md R150 to R164) -/

namespace Sys2Proof

namespace Machine

open Claims

variable {s : State}

/-- R54: a write to RAM goes to the cell behind the address. -/
theorem State.memWrite1_of_ram {a c : Word} (hentry : s.entry a = .ram c) (v : Byte) :
    s.memWrite1 a v = .done { s with mem := s.mem.writeCell c.toNat v } := by
  simp only [State.memWrite1, hentry]

/-- R54: a write to ROM that ignores writes completes and changes nothing. -/
theorem State.memWrite1_of_rom_ignore {a c : Word} (hentry : s.entry a = .rom c .ignore) (v : Byte) :
    s.memWrite1 a v = .done s := by
  simp only [State.memWrite1, hentry]

/-- R54: a write to ROM that rejects writes, or where there is no cell, fails at the address. -/
theorem State.memWrite1_of_rom_reject_or_unmapped {a c : Word}
    (hentry : s.entry a = .rom c .reject ∨ s.entry a = .unmapped) (v : Byte) :
    s.memWrite1 a v = .raised a := by
  obtain hentry | hentry := hentry <;> simp only [State.memWrite1, hentry]

/-- R52, R54: after a cell is written, every address of it reads the byte, every other as before. -/
theorem State.memRead1_writeCell (hs : s.Inv) (c : Word) (v : Byte) (b : Word) :
    ({ s with mem := s.mem.writeCell c.toNat v } : State).memRead1 b =
      if (s.entry b).readCell? = some c then .done v else s.memRead1 b := by
  have hentry : ({ s with mem := s.mem.writeCell c.toNat v } : State).entry b = s.entry b := rfl
  simp only [State.memRead1, hentry]
  obtain hread | ⟨k, hread⟩ := Option.eq_none_or_eq_some (s.entry b).readCell?
  · simp [hread]
  · rcases eq_or_ne k c with rfl | hne
    · simp [hread, Memory.readCell_writeCell_same hs]
    · have hcell : k.toNat ≠ c.toNat := fun h => hne (BitVec.eq_of_toNat_eq h)
      simp [hread, Memory.readCell_writeCell_other s.mem v hcell, hne]

variable {r : Reg} {mode : AddressingMode} {w : Word}

/-- R150: a store whose write completes advances `pc` on the state the write leaves. -/
theorem store_of_memWrite1_done {ea : Word} {t : State}
    (hres : resolve mode w s = .done (.addr ea)) (hwrite : s.memWrite1 ea (s.reg r) = .done t) :
    store r mode w s = .next (t.advance (1 + mode.operandBytes)) := by
  simp only [store, hres, hwrite]

/-- R151, R203: a store whose write fails has no effect but the fault. -/
theorem store_of_memWrite1_raised {ea a : Word}
    (hres : resolve mode w s = .done (.addr ea)) (hwrite : s.memWrite1 ea (s.reg r) = .raised a) :
    store r mode w s = memoryFault s a := by
  simp only [store, hres, hwrite]
  rfl

/-- R151, R203: a store whose pointer read fails has no effect but the fault. -/
theorem store_of_resolve_raised {a : Word} (hres : resolve mode w s = .raised a) :
    store r mode w s = memoryFault s a := by
  simp only [store, hres]
  rfl

/-- A store (R150, R151, R203), whatever its register: encoding apart, it does what `StoreRule` says,
because the resolver finds the effective address and fails where the rules do, and the map entry there
decides what the write does. -/
theorem storeRule_of_encode {i : Instr} {bytes : List Byte} (r : Reg)
    (haction : i.mnemonic.action = .store r) (henc : encode i = bytes)
    (hw : i.mode.operandBytes = 1 → i.operand.toNat < 256) :
    StoreRule i bytes i.mode i.operand.toNat (BitVec.ofNat 16 i.len) (fun s => s.reg r) := by
  have hstore (s : State) : exec i s = store r i.mode i.operand s := by rw [exec_eq_action, haction]
  have hresolve {s : State} {ea : Word} (hea : EffectiveAddress s i.mode i.operand.toNat ea) :
      resolve i.mode i.operand s = .done (.addr ea) := (resolve_eq_addr_iff_effectiveAddress hw).2 hea
  refine ⟨henc, fun s hs => ⟨fun ea c hea hram => ?_, fun ea c hea hignore => ?_,
    fun ea c hea hfail => ?_, fun a hptr => ?_⟩⟩
  · refine ⟨s.mem.writeCell c.toNat (s.reg r), ?_, State.memRead1_writeCell hs c (s.reg r)⟩
    rw [hstore]
    exact store_of_memWrite1_done (hresolve hea) (State.memWrite1_of_ram hram _)
  · rw [hstore]
    exact store_of_memWrite1_done (hresolve hea) (State.memWrite1_of_rom_ignore hignore _)
  · rw [hstore]
    exact store_of_memWrite1_raised (hresolve hea)
      (State.memWrite1_of_rom_reject_or_unmapped hfail _)
  · rw [hstore]
    exact store_of_resolve_raised ((resolve_eq_raised_iff_pointerReadFails hw).2 hptr)

/-- A store with a one-byte address operand: the zero-page and the indirect modes. -/
theorem storeRule_of_byte {i : Instr} {b : Byte} (r : Reg) (haction : i.mnemonic.action = .store r)
    (hlen : i.mode.operandBytes = 1) (hop : i.operand = zext16 b) :
    StoreRule i [i.opcode, b] i.mode b.toNat 2 (fun s => s.reg r) := by
  have hvalue : i.operand.toNat = b.toNat := by rw [hop, zext16_toNat]
  have hrule := storeRule_of_encode r haction (encode_of_one_operandByte hlen hop)
    fun _ => hvalue ▸ b.isLt
  rwa [hvalue, Instr.len, hlen] at hrule

/-- A store with a two-byte address operand: the absolute modes. -/
theorem storeRule_of_word {i : Instr} {w : Word} (r : Reg) (haction : i.mnemonic.action = .store r)
    (hlen : i.mode.operandBytes = 2) (hop : i.operand = w) :
    StoreRule i [i.opcode, lowOf w, highOf w] i.mode w.toNat 3 (fun s => s.reg r) := by
  have hrule := storeRule_of_encode r haction (encode_of_two_operandBytes hlen hop)
    fun h => by rw [hlen] at h; cases h
  rwa [hop, Instr.len, hlen] at hrule

end Machine

open Machine

/-- Settles O31: each STA is the shared store of `acc` through its addressing mode. -/
theorem staStoresTheAccumulator : Obligations.StaStoresTheAccumulator := fun _ _ =>
  ⟨storeRule_of_byte .acc rfl rfl rfl, storeRule_of_byte .acc rfl rfl rfl,
    storeRule_of_word .acc rfl rfl rfl, storeRule_of_word .acc rfl rfl rfl,
    storeRule_of_word .acc rfl rfl rfl,
    storeRule_of_byte .acc rfl rfl rfl, storeRule_of_byte .acc rfl rfl rfl⟩

/-- Settles O32: each STX is the shared store of `x` through its addressing mode. -/
theorem stxStoresX : Obligations.StxStoresX := fun _ _ =>
  ⟨storeRule_of_byte .x rfl rfl rfl, storeRule_of_byte .x rfl rfl rfl,
    storeRule_of_word .x rfl rfl rfl⟩

/-- Settles O33: each STY is the shared store of `y` through its addressing mode. -/
theorem styStoresY : Obligations.StyStoresY := fun _ _ =>
  ⟨storeRule_of_byte .y rfl rfl rfl, storeRule_of_byte .y rfl rfl rfl,
    storeRule_of_word .y rfl rfl rfl⟩

end Sys2Proof

/-! ### Transfers (spec/43_transfers.md R170 to R174) -/

namespace Sys2Proof

open Machine

/-- R81: an instruction without operand bytes is its opcode byte alone. -/
theorem encode_of_no_operandByte {i : Instr} (hlen : i.mode.operandBytes = 0) :
    encode i = [i.opcode] := by
  simp [encode, Instr.operandByteList, hlen]

/-- R170: a transfer accesses no memory, so it completes on every state, whatever its registers. -/
theorem Machine.exec_of_transfer {i : Instr} {src dest : Reg}
    (haction : i.mnemonic.action = .transfer src dest) (s : State) :
    exec i s = .next ((s.setReg dest (s.reg src)).advance 1) := by
  rw [exec_eq_action, haction]
  rfl

/-- Settles O34: each transfer is an instruction without operand bytes, and its action names the register
it copies and the one it copies into. -/
theorem transfersCopyOneRegister : Obligations.TransfersCopyOneRegister :=
  ⟨⟨encode_of_no_operandByte rfl, encode_of_no_operandByte rfl, encode_of_no_operandByte rfl,
      encode_of_no_operandByte rfl⟩,
    fun s => ⟨exec_of_transfer (src := .acc) (dest := .x) rfl s,
      exec_of_transfer (src := .acc) (dest := .y) rfl s,
      exec_of_transfer (src := .x) (dest := .acc) rfl s,
      exec_of_transfer (src := .y) (dest := .acc) rfl s⟩⟩

end Sys2Proof

/-! ### A block runs in order, as decoded (spec/45_block_execution.md R201 to R204) -/

namespace Sys2Proof

open Machine Claims

namespace Machine

variable {s t : State} {a : Word} {d : Descriptor} {ds : List Descriptor} {blk : Block}

/-- R36: a descriptor carries the address it was decoded at. -/
theorem State.readOperand_addr {form : Form} (h : s.readOperand a form = .done d) : d.addr = a := by
  cases form with
  | f1 i =>
    cases h
    rfl
  | f2 make =>
    simp only [State.readOperand] at h
    split at h <;> cases h
    rfl
  | f3 make =>
    simp only [State.readOperand] at h
    split at h
    · cases h
    · split at h <;> cases h
      rfl

theorem State.decodeAt_addr (h : s.decodeAt a = .done d) : d.addr = a := by
  unfold State.decodeAt at h
  split at h
  · cases h
  split at h
  · cases h
  split at h
  · cases h
  · exact State.readOperand_addr h

/-- One turn of the builder's loop read backwards (R192, R195). -/
theorem State.buildFrom_cons {n : Nat} {term : Terminal}
    (h : s.buildFrom n a = .done (d :: ds, term)) :
    d.addr = a ∧
      ((d.instr = .brk ∧ ds = []) ∨
       (d.instr ≠ .brk ∧ ∃ m, s.buildFrom m (a + BitVec.ofNat 16 d.len) = .done (ds, term))) := by
  cases n with
  | zero => cases h
  | succ m =>
    simp only [State.buildFrom] at h
    split at h
    · cases h
    split at h
    · cases h
    next hdecode =>
    split at h
    · next hbreak =>
      cases h
      exact ⟨State.decodeAt_addr hdecode, .inl ⟨(Instr.isBreak_iff _).1 hbreak, rfl⟩⟩
    · next hbreak =>
      split at h
      · cases h
      next hrest =>
      cases h
      exact ⟨State.decodeAt_addr hdecode, .inr ⟨mt (Instr.isBreak_iff _).2 hbreak, m, hrest⟩⟩

theorem State.buildFrom_of_buildBlock (h : s.buildBlock a = .done blk) :
    s.buildFrom s.cfg.maxInsns a = .done (blk.instructions, blk.terminal) := by
  unfold State.buildBlock at h
  split at h <;> cases h
  assumption

/-- The completing cases of `exec_cases`, with what they leave in `pc` and `status` (spec/10_state.md R22,
spec/44_break.md R181, R182). -/
theorem exec_next_cases {i : Instr} (h : exec i s = .next t) :
    (i ≠ .brk ∧ t.status = s.status ∧ t.pc = s.pc + BitVec.ofNat 16 i.len) ∨
    (i = .brk ∧ ∃ r, t.status = .halted r) := by
  obtain ⟨hi, r, v, he⟩ | ⟨hi, m, -, he⟩ | ⟨hi, o, r, he⟩ | ⟨-, c, he⟩ := exec_cases i s <;>
    rw [he] at h <;> cases h
  · exact .inl ⟨hi, by simp, by simp⟩
  · exact .inl ⟨hi, rfl, rfl⟩
  · exact .inr ⟨hi, r, rfl⟩

/-- R201: `pc` is updated before the next instruction begins, and BREAK lets none begin. -/
theorem exec_next_running {i : Instr} (h : exec i s = .next t) (hrun : t.status = .running) :
    i ≠ .brk ∧ t.pc = s.pc + BitVec.ofNat 16 i.len := by
  obtain ⟨hi, -, hpc⟩ | ⟨-, r, hr⟩ := exec_next_cases h
  · exact ⟨hi, hpc⟩
  · rw [hr] at hrun
    cases hrun

theorem eq_brk_of_exec_halted {i : Instr} {r : HaltReason} (hs : s.status = .running)
    (h : exec i s = .next t) (ht : t.status = .halted r) : i = .brk := by
  obtain ⟨-, hst, -⟩ | ⟨hi, -⟩ := exec_next_cases h
  · rw [hst, hs] at ht
    cases ht
  · exact hi

theorem runDescriptors_cons_of_fault {f : Fault} (h : exec d.instr s = .fault f) :
    runDescriptors (d :: ds) s = .fault f := by
  simp only [runDescriptors, h]

/-- R202, R204: after the last descriptor the run does not depend on whether the core still runs. -/
theorem runDescriptors_singleton_of_next (h : exec d.instr s = .next t) :
    runDescriptors [d] s = .next t := by
  simp only [runDescriptors, h, ite_self]

/-- R190: a block step of a running core runs the block built after the boundary check. -/
theorem step_of_buildBlock (hs : s.status = .running) (hcap : 1 ≤ s.cfg.maxInsns)
    (hblk : s.boundaryCheck.buildBlock s.boundaryCheck.pc = .done blk) :
    step s = runDescriptors blk.instructions s.boundaryCheck := by
  simp only [step, hs, blockStep, buildAndRun, hblk, if_neg (Nat.one_le_iff_ne_zero.1 hcap)]

end Machine

section

variable {v u : State} {ds₁ : List Descriptor}

theorem Claims.RunsTo.status_running (hrun : RunsTo v ds₁ u) (hv : v.status = .running) :
    u.status = .running := by
  induction hrun with
  | nil => exact hv
  | cons _ hu _ ih => exact ih hu

/-- R201: running a list from `v` is running its rest from the state that its first part leads to. -/
theorem Claims.RunsTo.runDescriptors_append (hrun : RunsTo v ds₁ u) (ds₂ : List Descriptor) :
    runDescriptors (ds₁ ++ ds₂) v = runDescriptors ds₂ u := by
  induction hrun with
  | nil => rfl
  | cons hexec hu _ ih => simp only [List.cons_append, runDescriptors, hexec, if_pos hu, ih]

/-- The pc invariant of a run (R201): the descriptors still to run are what the builder answered at the
address that `pc` has reached. The builder reads the state `b` before the run, so the stores of the run do
not matter. -/
theorem Claims.RunsTo.buildFrom_rest {b : State} {ds₂ : List Descriptor} {term : Terminal} {n : Nat}
    (hrun : RunsTo v ds₁ u) (hbuild : b.buildFrom n v.pc = .done (ds₁ ++ ds₂, term)) :
    ∃ m, b.buildFrom m u.pc = .done (ds₂, term) := by
  induction hrun generalizing n with
  | nil => exact ⟨n, hbuild⟩
  | cons hexec hu _ ih =>
    obtain ⟨hi, hpc⟩ := exec_next_running hexec hu
    obtain ⟨-, ⟨hbrk, -⟩ | ⟨-, m, hm⟩⟩ := State.buildFrom_cons hbuild
    · exact absurd hbrk hi
    · exact ih (hpc ▸ hm)

end

/-- Settles O11: after the first instructions of the block the rest of it stands at `pc`, as built before
the run, and the step is the run of that rest. -/
theorem blockRunsInOrder : Obligations.BlockRunsInOrder := by
  rintro s b u blk ds₁ ds₂ d hs hcap rfl hblk hsplit hrun
  have hu : u.status = .running :=
    hrun.status_running (s.boundaryCheck_frame.1.trans hs)
  have hstep : step s = runDescriptors (d :: ds₂) u := by
    rw [step_of_buildBlock hs hcap hblk, hsplit, hrun.runDescriptors_append]
  obtain ⟨_, hrest⟩ := hrun.buildFrom_rest (hsplit ▸ State.buildFrom_of_buildBlock hblk)
  obtain ⟨haddr, hnext⟩ := State.buildFrom_cons hrest
  have hlast : ∀ t, exec d.instr u = .next t → ds₂ = [] → step s = .next t := by
    rintro t hexec rfl
    exact hstep.trans (runDescriptors_singleton_of_next hexec)
  refine ⟨haddr.symm, fun f hexec => hstep.trans (runDescriptors_cons_of_fault hexec),
    fun t r hexec ht => ?_, hlast⟩
  obtain ⟨-, hnil⟩ | ⟨hi, -⟩ := hnext
  · exact ⟨hnil, hlast t hexec hnil⟩
  · exact absurd (eq_brk_of_exec_halted hu hexec ht) hi

end Sys2Proof

/-! ### Exceptions (spec/60_exceptions.md R225 to R238) -/

namespace Sys2Proof

open Machine Claims

namespace Machine

variable {s : State}

/-! The push addresses, the pushed bytes, the vectors and the lowered `sp` on integers. -/

/-- R8 on integers. -/
theorem stackBase_value_eq_ofNat (s : State) :
    s.cfg.stackBase.value = BitVec.ofNat 16 (stackBase s) := by
  unfold stackBase
  cases s.cfg.stackBase <;> rfl

/-- R237 on integers: a push with stack pointer `sp`. -/
theorem State.pushAddr_eq_ofNat (s : State) (sp : Byte) :
    s.pushAddr sp = BitVec.ofNat 16 (stackBase s + sp.toNat) := by
  rw [State.pushAddr, stackBase_value_eq_ofNat, zext16_eq_ofNat_toNat, BitVec.ofNat_add]

theorem State.pushAddr_sp_eq_firstPush (s : State) : s.pushAddr s.sp = firstPush s :=
  s.pushAddr_eq_ofNat s.sp

theorem State.pushAddr_sp_sub_one_eq_secondPush (s : State) :
    s.pushAddr (s.sp - 1) = secondPush s := by
  have hsp : (s.sp - 1).toNat = (s.sp.toNat + 255) % 256 := by bv_omega
  rw [State.pushAddr_eq_ofNat, hsp, secondPush]

theorem hiByte_pc_eq_pushedHi (s : State) : hiByte s.pc = pushedHi s := by
  rw [pushedHi, ← hiByte_toNat, BitVec.ofNat_toNat, BitVec.setWidth_eq]

theorem loByte_pc_eq_pushedLo (s : State) : loByte s.pc = pushedLo s := by
  rw [pushedLo, ← loByte_toNat, BitVec.ofNat_toNat, BitVec.setWidth_eq]

theorem vector_eq_ofNat_vectorAddress (k : IrqKind) :
    vector k = BitVec.ofNat 16 (vectorAddress k) := by
  cases k <;> rfl

/-- R24: lowering `sp` by 2 modulo 256. -/
theorem sub_two_eq_ofNat_add_254 (sp : Byte) : sp - 2 = BitVec.ofNat 8 (sp.toNat + 254) := by
  bv_omega

/-- R236: a delivery whose two writes and whose vector read complete. -/
theorem State.deliver_of_done {s₁ s₂ : State} {k : IrqKind} {target : Word}
    (hfirst : s.memWrite1 (firstPush s) (pushedHi s) = .done s₁)
    (hsecond : s₁.memWrite1 (secondPush s) (pushedLo s) = .done s₂)
    (hvector : PointerAt s₂ (vectorAddress k) target) :
    s.deliver k =
      { s₂ with pc := target, sp := s.sp - 2, pending := s.pending.set k false } := by
  have hread : s₂.memRead2 (vector k) = .done target := by
    rw [vector_eq_ofNat_vectorAddress, State.memRead2_eq_done_iff_pointerAt]
    exact hvector
  rw [← s.pushAddr_sp_eq_firstPush, ← hiByte_pc_eq_pushedHi] at hfirst
  rw [← s.pushAddr_sp_sub_one_eq_secondPush, ← loByte_pc_eq_pushedLo] at hsecond
  simp only [State.deliver, hfirst, hsecond, hread]

/-! What is due (R228 to R231), and that the boundary check delivers it. -/

theorem State.boundaryCheck_of_due {k : IrqKind} (h : s.dueInterrupt = some k) :
    s.boundaryCheck = s.deliver k := by
  simp only [State.boundaryCheck, h]

theorem State.boundaryCheck_of_none_due (h : s.dueInterrupt = none) : s.boundaryCheck = s := by
  simp only [State.boundaryCheck, h]

theorem State.dueInterrupt_of_reset (hreset : s.pending.reset = true) :
    s.dueInterrupt = some .reset :=
  if_pos hreset

theorem State.dueInterrupt_of_nmi (hreset : s.pending.reset = false)
    (hnmi : s.pending.nmi = true) : s.dueInterrupt = some .nmi := by
  simp [State.dueInterrupt, hreset, hnmi]

/-- R230: with neither Reset nor Nmi pending, bit 2 of `sr` decides whether Irq is due. -/
theorem State.dueInterrupt_of_no_reset_no_nmi (hreset : s.pending.reset = false)
    (hnmi : s.pending.nmi = false) :
    s.dueInterrupt =
      if s.pending.irq = true ∧ s.sr.getLsbD 2 = false then some .irq else none := by
  simp [State.dueInterrupt, State.flag, Flag.bit, hreset, hnmi]

end Machine

/-- Settles O43: the writes and the read of `deliver` are those of the statement, and the two writes leave
everything but memory as it was. -/
theorem deliveryPushesAndVectors : Obligations.DeliveryPushesAndVectors := by
  intro s s₁ s₂ k target hfirst hsecond hvector
  have h₁ : s₁ = { s with mem := s₁.mem } := (State.memWrite1_done hfirst).1
  have h₂ : s₂ = { s with mem := s₂.mem } := calc
    s₂ = { s₁ with mem := s₂.mem } := (State.memWrite1_done hsecond).1
    _ = { s with mem := s₂.mem } := by rw [h₁]
  rw [State.deliver_of_done hfirst hsecond hvector, sub_two_eq_ofNat_add_254, h₂]

/-- Settles O42: each case fixes what is due, and the boundary check delivers that. -/
theorem boundaryCheckPriority : Obligations.BoundaryCheckPriority := by
  intro s
  refine ⟨fun hreset => ?_, fun hreset hnmi => ?_, fun hreset hnmi hirq hsr => ?_,
    fun hreset hnmi hmasked => ?_⟩
  · exact State.boundaryCheck_of_due (State.dueInterrupt_of_reset hreset)
  · exact State.boundaryCheck_of_due (State.dueInterrupt_of_nmi hreset hnmi)
  · apply State.boundaryCheck_of_due
    rw [State.dueInterrupt_of_no_reset_no_nmi hreset hnmi, if_pos ⟨hirq, hsr⟩]
  · apply State.boundaryCheck_of_none_due
    rw [State.dueInterrupt_of_no_reset_no_nmi hreset hnmi]
    obtain hirq | hsr := hmasked
    · simp only [hirq, Bool.false_eq_true, false_and, if_false]
    · simp only [hsr, Bool.true_eq_false, and_false, if_false]

/-- Settles O48: a signal is a write of one pending bit, so the laws of `Pending.set` (R226) decide the
bits, and a second write of the same bit replaces the first. -/
theorem signalsAreLatches : Obligations.SignalsAreLatches := by
  intro s k
  refine ⟨?_, fun j hj => ?_, rfl, ?_⟩
  · rw [State.signal_pending, Pending.get_set, if_pos rfl]
  · rw [State.signal_pending, Pending.get_set, if_neg hj]
  · simp only [State.signal, Pending.set_set]

end Sys2Proof

/-! ### Encoding and decoding of byte lists (spec/30_encoding.md R80 to R89) -/

namespace Sys2Proof

/-- Every instruction that a row with opcode byte `op` and this format can make is encoded in `op` and its
operand bytes (R81, R85). -/
def Form.Encodes (op : Byte) : Form → Prop
  | .f1 i => encode i = [op]
  | .f2 mk => ∀ b, encode (mk b) = [op, b]
  | .f3 mk => ∀ w, encode (mk w) = [op, loByte w, hiByte w]

theorem Form.encodes_f2 {op : Byte} {mk : Byte → Instr}
    (h : ∀ b, encode (mk b) = [op, loByte (zext16 b)]) : (Form.f2 mk).Encodes op :=
  fun b => by rw [h, loByte_zext16]

/-- R89 against R81, in the order of the table's rows. -/
theorem encodes_of_mem_opcodeTable : ∀ row ∈ opcodeTable, row.2.Encodes row.1 := by
  have byte {op : Byte} {mk : Byte → Instr} := Form.encodes_f2 (op := op) (mk := mk)
  simp only [opcodeTable, List.cons_append, List.nil_append, List.forall_mem_cons]
  exact ⟨rfl, byte fun _ => rfl, byte fun _ => rfl,
    byte fun _ => rfl, byte fun _ => rfl, rfl,
    fun _ => rfl, fun _ => rfl, fun _ => rfl,
    byte fun _ => rfl, byte fun _ => rfl, byte fun _ => rfl,
    byte fun _ => rfl, rfl, fun _ => rfl,
    fun _ => rfl, byte fun _ => rfl, byte fun _ => rfl,
    byte fun _ => rfl, byte fun _ => rfl, byte fun _ => rfl,
    byte fun _ => rfl, rfl, byte fun _ => rfl,
    rfl, fun _ => rfl, fun _ => rfl,
    fun _ => rfl, byte fun _ => rfl, byte fun _ => rfl,
    byte fun _ => rfl, byte fun _ => rfl, fun _ => rfl,
    fun _ => rfl, fun _ => rfl, fun _ => rfl, fun _ h => nomatch h⟩

theorem encodes_of_decodeOpcode {op : Byte} {form : Form} (h : decodeOpcode op = some form) :
    form.Encodes op := by
  obtain ⟨row, hfind, rfl⟩ := Option.map_eq_some_iff.1 h
  have hop : row.1 = op := by simpa using List.find?_some hfind
  exact hop ▸ encodes_of_mem_opcodeTable row (List.mem_of_find?_eq_some hfind)

/-- The instruction is one that the format makes. -/
def Form.Makes (i : Instr) : Form → Prop
  | .f1 j => j = i
  | .f2 mk => ∃ b, mk b = i
  | .f3 mk => ∃ w, mk w = i

/-- R89: the row of an instruction's opcode byte makes that instruction. -/
theorem exists_form_of_opcode (i : Instr) :
    ∃ form, decodeOpcode i.opcode = some form ∧ form.Makes i := by
  cases i with
  | tax | tay | txa | tya | brk => exact ⟨_, rfl, rfl⟩
  | _ => exact ⟨_, rfl, _, rfl⟩

/-- R80, R81: the length is that of the opcode byte and the format's operand bytes. -/
theorem Form.operandBytes_add_one {op : Byte} {form : Form} {i : Instr} (henc : form.Encodes op)
    (hmakes : form.Makes i) : form.operandBytes + 1 = i.len := by
  rw [← (Laws.Encoding.all i).1]
  cases form <;> simp only [Form.Encodes, Form.Makes] at henc hmakes
  case f1 j => rw [← hmakes, henc]; rfl
  case f2 mk => obtain ⟨b, rfl⟩ := hmakes; rw [henc]; rfl
  case f3 mk => obtain ⟨w, rfl⟩ := hmakes; rw [henc]; rfl

/-- Settles O1: the row of the instruction's opcode byte makes the instruction, and the row's format says
what its operand bytes are. -/
theorem decodeAfterEncodeGivesTheInstruction : Obligations.DecodeAfterEncodeGivesTheInstruction := by
  intro i rest
  obtain ⟨form, hop, hmakes⟩ := exists_form_of_opcode i
  have henc := encodes_of_decodeOpcode hop
  cases form <;> simp only [Form.Encodes, Form.Makes] at henc hmakes
  case f1 j => subst hmakes; rw [henc]; simp [decodeBytes, hop]
  case f2 mk => obtain ⟨b, rfl⟩ := hmakes; rw [henc]; simp [decodeBytes, hop]
  case f3 mk => obtain ⟨w, rfl⟩ := hmakes; rw [henc]; simp [decodeBytes, hop]

/-- Settles O2: each way the decoder answers is a row of the table with the operand bytes that its format
asks for. -/
theorem encodeAfterDecodeGivesTheBytes : Obligations.EncodeAfterDecodeGivesTheBytes := by
  intro bs rest i h
  unfold decodeBytes at h
  split at h
  · cases h
  split at h
  · cases h
  · next hop =>
    have henc := encodes_of_decodeOpcode hop
    cases h
    simp only [Form.Encodes] at henc
    rw [henc]
    rfl
  · next hop =>
    have henc := encodes_of_decodeOpcode hop
    cases h
    simp only [Form.Encodes] at henc
    rw [henc]
    rfl
  · next hop =>
    have henc := encodes_of_decodeOpcode hop
    cases h
    simp only [Form.Encodes] at henc
    rw [henc, loByte_wordOfBytes, hiByte_wordOfBytes]
    rfl
  · cases h

/-- Settles O3: ten closed runs of the decoder. -/
theorem writtenOutWordsDecode : Obligations.WrittenOutWordsDecode := by
  unfold Obligations.WrittenOutWordsDecode
  decide

end Sys2Proof

/-! ### The decoder over memory (spec/30_encoding.md R85, R88, R94, spec/45_block_execution.md R194) -/

namespace Sys2Proof

open Machine Claims

namespace Machine

variable {s : State} {a : Word} {d : Descriptor}

/-- The four checks of R88, all passed. -/
theorem State.decodeAt_eq_done_iff :
    s.decodeAt a = .done d ↔
      ∃ op form, s.memRead1 a = .done op ∧ decodeOpcode op = some form ∧
        a.toNat + form.operandBytes ≤ 0xFFF9 ∧ s.readOperand a form = .done d := by
  have hlast : lastFetchAddr.toNat = 0xFFF9 := rfl
  unfold State.decodeAt
  cases s.memRead1 a with
  | raised e => simp
  | done op =>
    cases hop : decodeOpcode op with
    | none => simp [hop]
    | some form =>
      simp only [hlast, Attempt.done.injEq, Option.some.injEq, exists_and_left, exists_eq_left', hop]
      split
      · next hrange => simp [Nat.not_le.2 hrange]
      · next hrange => simp [Nat.not_lt.1 hrange]

/-- R85: operand assembly answers the instruction of the format whose encoding stands at the address. -/
theorem State.readOperand_eq_done_iff {op : Byte} {form : Form} (hop : s.memRead1 a = .done op)
    (henc : form.Encodes op) :
    s.readOperand a form = .done d ↔
      d.addr = a ∧ form.Makes d.instr ∧ BytesAt s a (encode d.instr) := by
  obtain ⟨i, p⟩ := d
  have htwo : a + 1 + 1 = a + 2 := by bv_omega
  cases form <;> simp only [Form.Encodes, Form.Makes, State.readOperand] at henc ⊢
  case f1 j =>
    constructor
    · rintro ⟨⟩
      exact ⟨rfl, rfl, henc ▸ ⟨hop, trivial⟩⟩
    · rintro ⟨rfl, rfl, -⟩
      rfl
  case f2 mk =>
    constructor
    · intro h
      split at h <;> cases h
      next b hb => exact ⟨rfl, ⟨b, rfl⟩, henc b ▸ ⟨hop, hb, trivial⟩⟩
    · rintro ⟨rfl, ⟨b, rfl⟩, hbytes⟩
      rw [henc] at hbytes
      obtain ⟨-, hb, -⟩ := hbytes
      simp only [hb]
  case f3 mk =>
    constructor
    · intro h
      split at h
      · cases h
      next lo hlo =>
      split at h <;> cases h
      next hi hhi =>
        refine ⟨rfl, ⟨_, rfl⟩, ?_⟩
        rw [henc, loByte_wordOfBytes, hiByte_wordOfBytes]
        exact ⟨hop, hlo, htwo ▸ hhi, trivial⟩
    · rintro ⟨rfl, ⟨w, rfl⟩, hbytes⟩
      rw [henc] at hbytes
      obtain ⟨-, hlo, hhi, -⟩ := hbytes
      rw [htwo] at hhi
      simp only [hlo, hhi, wordOfBytes_hiByte_loByte]

/-- R85, R88, R194: the decoder answers exactly the instruction whose encoding stands at the address and ends
by `LAST_FETCH_ADDR`. -/
theorem State.decodeAt_eq_done_iff_bytesAt :
    s.decodeAt a = .done d ↔
      d.addr = a ∧ BytesAt s a (encode d.instr) ∧ a.toNat + d.instr.len ≤ 0xFFFA := by
  rw [State.decodeAt_eq_done_iff]
  constructor
  · rintro ⟨op, form, hread, hop, hrange, h⟩
    have henc := encodes_of_decodeOpcode hop
    obtain ⟨haddr, hmakes, hbytes⟩ := (State.readOperand_eq_done_iff hread henc).1 h
    have hlen := Form.operandBytes_add_one henc hmakes
    exact ⟨haddr, hbytes, by omega⟩
  · rintro ⟨haddr, hbytes, hrange⟩
    obtain ⟨form, hop, hmakes⟩ := exists_form_of_opcode d.instr
    have henc := encodes_of_decodeOpcode hop
    have hlen := Form.operandBytes_add_one henc hmakes
    exact ⟨_, form, hbytes.1, hop, by omega,
      (State.readOperand_eq_done_iff hbytes.1 henc).2 ⟨haddr, hmakes, hbytes⟩⟩

/-- R194: the range test comes before the operand bytes are read. -/
theorem State.decodeAt_of_straddling {op : Byte} {form : Form} (hread : s.memRead1 a = .done op)
    (hop : decodeOpcode op = some form) (hrange : 0xFFF9 < a.toNat + form.operandBytes) :
    s.decodeAt a = .raised (.fetchOutOfRange a) := by
  simp only [State.decodeAt, hread, hop]
  exact if_pos hrange

variable {t : State}

/-- R94. -/
theorem State.decodeAt_congr (hm : s.mem = t.mem) (hc : s.cfg.memMap = t.cfg.memMap) (a : Word) :
    s.decodeAt a = t.decodeAt a := by
  have hoperand : s.readOperand a = t.readOperand a := by
    funext form
    cases form <;> simp only [State.readOperand, State.memRead1_congr hm hc]
  simp only [State.decodeAt, State.memRead1_congr hm hc, hoperand]

/-- R94. -/
theorem State.buildFrom_congr (hm : s.mem = t.mem) (hc : s.cfg.memMap = t.cfg.memMap) (n : Nat)
    (a : Word) : s.buildFrom n a = t.buildFrom n a := by
  induction n generalizing a with
  | zero => rfl
  | succ n ih => simp only [State.buildFrom, State.decodeAt_congr hm hc, ih]

theorem State.buildBlock_congr (hm : s.mem = t.mem) (hc : s.cfg.memMap = t.cfg.memMap)
    (hn : s.cfg.maxInsns = t.cfg.maxInsns) (a : Word) : s.buildBlock a = t.buildBlock a := by
  simp only [State.buildBlock, State.buildFrom_congr hm hc, hn]

end Machine

/-- Settles O5: the range test of the decoder already puts the address at or below `LAST_FETCH_ADDR`. -/
theorem decoderReadsTheBytesAtTheAddress : Obligations.DecoderReadsTheBytesAtTheAddress :=
  fun _ _ _ _ => State.decodeAt_eq_done_iff_bytesAt

/-- Settles O6: the row of the opcode byte has as many operand bytes as the instruction. -/
theorem straddlingInstructionIsRefused : Obligations.StraddlingInstructionIsRefused := by
  intro s a _
  refine ⟨fun i hread hrange => ?_, fun b hread hop => ?_⟩
  · obtain ⟨form, hop, hbytes⟩ := (Laws.Encoding.all i).2
    refine State.decodeAt_of_straddling hread hop ?_
    rw [hbytes]
    simpa [Instr.len] using hrange
  · exact (illegalOpcodesAreReported s a b).1 hread hop

/-- Settles O7: every read of the decoder and of the builder is a byte read. -/
theorem decodingReadsMemoryOnly : Obligations.DecodingReadsMemoryOnly :=
  fun _ _ hm hc => ⟨State.decodeAt_congr hm hc, State.buildBlock_congr hm hc⟩

end Sys2Proof

/-! ### What an instruction and a run of instructions keep (spec/10_state.md R22, R31, R38) -/

namespace Sys2Proof

open Machine Claims

namespace Machine

variable {s t : State} {i : Instr} {f : Fault} {ds : List Descriptor}

theorem exec_of_load {r : Reg} (h : i.mnemonic.action = .load r) :
    exec i s = load r i.mode i.operand s := by
  rw [exec_eq_action, h]

theorem exec_of_store {r : Reg} (h : i.mnemonic.action = .store r) :
    exec i s = store r i.mode i.operand s := by
  rw [exec_eq_action, h]

theorem exec_of_halt (h : i.mnemonic.action = .halt) : exec i s = execBrk s := by
  rw [exec_eq_action, h]

/-- R203: an instruction faults in a memory access only, and leaves everything but `status`. -/
theorem exec_fault (h : exec i s = .fault f) :
    ∃ a, f = .memoryTransactionError a (s.setStatus (.fault (.memoryTransactionError a))) := by
  obtain ⟨-, r, v, he⟩ | ⟨-, m, -, he⟩ | ⟨-, o, r, he⟩ | ⟨-, a, he⟩ := exec_cases i s <;>
    rw [he] at h <;> cases h
  exact ⟨a, rfl⟩

theorem exec_ne_refused (r : Refusal) : exec i s ≠ .refused r := by
  obtain ⟨-, _, _, he⟩ | ⟨-, _, -, he⟩ | ⟨-, _, _, he⟩ | ⟨-, _, he⟩ := exec_cases i s <;>
    (rw [he]; nofun)

/-- R22. -/
theorem exec_next_pc (h : exec i s = .next t) :
    t.pc = if i = .brk then s.pc else s.pc + BitVec.ofNat 16 i.len := by
  obtain ⟨hi, r, v, he⟩ | ⟨hi, m, -, he⟩ | ⟨hi, o, r, he⟩ | ⟨-, c, he⟩ := exec_cases i s <;>
    rw [he] at h <;> cases h
  · simp [hi]
  · simp [hi]
  · simp [hi]

/-- The fields that no instruction writes (R31 for `sr`). -/
theorem exec_next_frame (h : exec i s = .next t) :
    t.sr = s.sr ∧ t.cfg = s.cfg ∧ t.sp = s.sp ∧ t.pending = s.pending := by
  obtain ⟨-, r, v, he⟩ | ⟨-, m, -, he⟩ | ⟨-, o, r, he⟩ | ⟨-, c, he⟩ := exec_cases i s <;>
    rw [he] at h <;> cases h <;> simp

theorem exec_next_cfg (h : exec i s = .next t) : t.cfg = s.cfg := by
  obtain ⟨-, hcfg, -, -⟩ := exec_next_frame h
  exact hcfg

theorem exec_next_pending (h : exec i s = .next t) : t.pending = s.pending := by
  obtain ⟨-, -, -, hpending⟩ := exec_next_frame h
  exact hpending

section

variable {P : State → Prop}

/-- R201 to R203: what every instruction keeps, a run keeps; a run that faults does so at an instruction that
it reached. -/
theorem runDescriptors_keeps (hexec : ∀ {i s t}, P s → exec i s = .next t → P t) (hs : P s) :
    (∀ t, runDescriptors ds s = .next t → P t) ∧
    (∀ f, runDescriptors ds s = .fault f → ∃ i u, P u ∧ exec i u = .fault f) := by
  induction ds generalizing s with
  | nil => exact ⟨fun t h => by cases h; exact hs, fun f h => by cases h⟩
  | cons d ds ih =>
    simp only [runDescriptors]
    cases he : exec d.instr s <;> dsimp only
    case next u =>
      have hu := hexec hs he
      split
      · exact ih hu
      · exact ⟨fun t h => by cases h; exact hu, fun f h => by cases h⟩
    case fault g => exact ⟨fun t h => (by cases h), fun f h => by cases h; exact ⟨_, s, hs, he⟩⟩
    case refused r => exact ⟨fun t h => (by cases h), fun f h => by cases h⟩

theorem runDescriptors_ne_refused (r : Refusal) : runDescriptors ds s ≠ .refused r := by
  induction ds generalizing s with
  | nil => nofun
  | cons d ds ih =>
    simp only [runDescriptors]
    cases he : exec d.instr s <;> dsimp only
    case next u =>
      split
      · exact ih
      · nofun
    case fault g => nofun
    case refused q => exact absurd he (exec_ne_refused q)

/-! The step, by the outcome of its build (R190, R199). -/

theorem step_of_halted {r : HaltReason} (h : s.status = .halted r) :
    step s = .refused (.halted r) := by
  simp only [step, h]

theorem step_of_fault {c : FaultCause} (h : s.status = .fault c) : step s = .fault (c.stop s) := by
  simp only [step, h]

theorem step_of_running (hs : s.status = .running) (hcap : 1 ≤ s.cfg.maxInsns) :
    step s = buildAndRun s.boundaryCheck := by
  simp only [step, hs, blockStep, if_neg (Nat.one_le_iff_ne_zero.1 hcap)]

/-- R199. -/
theorem step_of_buildBlock_raised {e : FaultCause} (hs : s.status = .running)
    (hcap : 1 ≤ s.cfg.maxInsns) (h : s.boundaryCheck.buildBlock s.boundaryCheck.pc = .raised e) :
    step s = s.boundaryCheck.raise e := by
  simp only [step_of_running hs hcap, buildAndRun, h]

/-- A step that goes on is the run of the block built after the boundary check. -/
theorem step_next (h : step s = .next t) :
    s.status = .running ∧ 1 ≤ s.cfg.maxInsns ∧ ∃ blk,
      s.boundaryCheck.buildBlock s.boundaryCheck.pc = .done blk ∧
      runDescriptors blk.instructions s.boundaryCheck = .next t := by
  cases hs : s.status with
  | halted r => rw [step_of_halted hs] at h; cases h
  | fault c => rw [step_of_fault hs] at h; cases h
  | running =>
    rcases Nat.eq_zero_or_pos s.cfg.maxInsns with hcap | hcap
    · simp [step, hs, blockStep, hcap] at h
    cases hblk : s.boundaryCheck.buildBlock s.boundaryCheck.pc with
    | raised e => rw [step_of_buildBlock_raised hs hcap hblk] at h; cases h
    | done blk => exact ⟨rfl, hcap, blk, rfl, by rw [← step_of_buildBlock hs hcap hblk, h]⟩

/-- A step of a running core that faults does so in its build or at an instruction that it reached. -/
theorem step_fault (hs : s.status = .running) (h : step s = .fault f)
    (hexec : ∀ {i s t}, P s → exec i s = .next t → P t) (hb : P s.boundaryCheck) :
    (∃ e, s.boundaryCheck.buildBlock s.boundaryCheck.pc = .raised e ∧
      f = e.stop (s.boundaryCheck.setStatus (.fault e))) ∨
    (∃ i u, P u ∧ exec i u = .fault f) := by
  rcases Nat.eq_zero_or_pos s.cfg.maxInsns with hcap | hcap
  · simp [step, hs, blockStep, hcap] at h
  cases hblk : s.boundaryCheck.buildBlock s.boundaryCheck.pc with
  | raised e =>
    rw [step_of_buildBlock_raised hs hcap hblk] at h
    cases h
    exact .inl ⟨e, rfl, rfl⟩
  | done blk =>
    rw [step_of_buildBlock hs hcap hblk] at h
    exact .inr ((runDescriptors_keeps hexec hb).2 f h)

theorem step_next_keeps (h : step s = .next t) (hexec : ∀ {i s t}, P s → exec i s = .next t → P t)
    (hb : P s.boundaryCheck) : P t := by
  obtain ⟨-, -, blk, -, hrun⟩ := step_next h
  exact (runDescriptors_keeps hexec hb).1 t hrun

@[simp] theorem FaultCause.stop_after (c : FaultCause) (s : State) : (c.stop s).after = s := by
  cases c <;> rfl

/-- What the boundary check and every instruction keep, and `status` does not matter to, a step keeps, whether
it goes on or faults. -/
theorem step_keeps (hexec : ∀ {i s t}, P s → exec i s = .next t → P t)
    (hstatus : ∀ {s} v, P s → P (s.setStatus v)) (hs : P s) (hb : P s.boundaryCheck) :
    (∀ t, step s = .next t → P t) ∧ (∀ f, step s = .fault f → P f.after) := by
  refine ⟨fun t h => step_next_keeps h hexec hb, fun f h => ?_⟩
  cases hst : s.status with
  | halted r => rw [step_of_halted hst] at h; cases h
  | fault c =>
    rw [step_of_fault hst] at h
    cases h
    simpa using hs
  | running =>
    obtain ⟨e, -, rfl⟩ | ⟨i, u, hu, he⟩ := step_fault hst h hexec hb
    · simpa using hstatus _ hb
    · obtain ⟨a, rfl⟩ := exec_fault he
      exact hstatus _ hu

end

end Machine

/-- Settles O15: the encoding has the instruction's length. -/
theorem pcAdvancesByTheEncodedLength : Obligations.PcAdvancesByTheEncodedLength := by
  intro i s
  refine ⟨fun t h => ?_, fun f h => ?_⟩
  · rw [exec_next_pc h, (Laws.Encoding.all i).1]
  · obtain ⟨a, rfl⟩ := exec_fault h
    rfl

/-- Settles O40: `sr` and the configuration are kept by the boundary check and by every instruction. -/
theorem noStepWritesSr : Obligations.NoStepWritesSr := by
  intro s
  have hexec {i : Instr} {u t : State} (h : exec i u = .next t) : t.sr = u.sr ∧ t.cfg = u.cfg := by
    obtain ⟨hsr, hcfg, -, -⟩ := exec_next_frame h
    exact ⟨hsr, hcfg⟩
  have hstep := step_keeps (s := s) (P := fun u => u.sr = s.sr ∧ u.cfg = s.cfg)
    (fun hu he => by rw [(hexec he).1, (hexec he).2]; exact hu) (fun _ hu => hu) ⟨rfl, rfl⟩
    (by obtain ⟨-, -, -, -, hsr, hcfg, -⟩ := s.boundaryCheck_frame; exact ⟨hsr, hcfg⟩)
  refine ⟨fun i t h => hexec h, fun i f h => ?_, hstep⟩
  obtain ⟨a, rfl⟩ := exec_fault h
  exact ⟨rfl, rfl⟩

/-- Settles O12: a run of a core that runs leaves it running or halted, and neither the build nor the run is
ever refused. -/
theorem blockStepEndsInOneOfThreeOutcomes : Obligations.BlockStepEndsInOneOfThreeOutcomes := by
  intro s hs hcap
  cases hstep : step s with
  | next t =>
    refine .inl ⟨t, rfl, ?_⟩
    refine step_next_keeps (P := fun u => u.status = .running ∨ ∃ r, u.status = .halted r) hstep
      (fun hu he => ?_) (.inl (s.boundaryCheck_frame.1.trans hs))
    obtain ⟨-, hst, -⟩ | ⟨-, hr⟩ := exec_next_cases he
    · exact hst ▸ hu
    · exact .inr hr
  | fault f => exact .inr ⟨f, rfl⟩
  | refused r =>
    rw [step_of_running hs hcap, buildAndRun] at hstep
    split at hstep
    · cases hstep
    · exact absurd hstep (runDescriptors_ne_refused r)

/-- Settles O13: both the build and an instruction record the fault they raise. -/
theorem faultsRecordTheirStatus : Obligations.FaultsRecordTheirStatus := by
  intro s f hs h
  have hrecorded : ∃ (c : FaultCause) (u : State), f = c.stop (u.setStatus (.fault c)) := by
    obtain ⟨e, -, hf⟩ | ⟨i, u, -, he⟩ := step_fault (P := fun _ => True) hs h (fun _ _ => trivial) trivial
    · exact ⟨e, _, hf⟩
    · obtain ⟨a, hf⟩ := exec_fault he
      exact ⟨.memoryTransactionError a, u, hf⟩
  obtain ⟨c, u, rfl⟩ := hrecorded
  refine ⟨fun a op t hf => ?_, fun a t hf => ?_, fun a t hf => ?_⟩ <;>
    (cases c <;> cases hf; rfl)

/-- Settles O14: a signal leaves `status`, and `status` alone decides that there is no step. -/
theorem notRunningHasNoStep : Obligations.NotRunningHasNoStep := by
  intro s k
  refine ⟨fun r hr => ⟨step_of_halted hr, step_of_halted hr, step_of_halted hr⟩,
    fun c hc => ⟨step_of_fault hc, fun t => ⟨?_, ?_⟩⟩⟩
  · rw [step_of_fault (s := s.signal k) hc]
    nofun
  · rw [step_of_fault (s := s.assertReset) hc]
    nofun

end Sys2Proof

/-! ### Stores and memory: what a write can reach (spec/20_memory.md R51, R54, spec/42_stores.md R150) -/

namespace Sys2Proof

open Machine Claims

namespace Machine

variable {s t : State} {i : Instr}

/-- R54: a write reaches no address but those of a RAM cell behind the address written. -/
theorem State.memRead1_of_memWrite1_done {a : Word} {v : Byte} (h : s.memWrite1 a v = .done t) {b : Word}
    (hb : ∀ c, s.entry a = .ram c → (s.entry b).readCell? ≠ some c) : t.memRead1 b = s.memRead1 b := by
  obtain ⟨c, hram, hw⟩ | ⟨c, -, hw⟩ | ⟨-, hw⟩ := s.memWrite1_cases a v <;> rw [hw] at h <;> cases h
  · have hentry : ({ s with mem := s.mem.writeCell c.toNat v } : State).entry b = s.entry b := rfl
    simp only [State.memRead1, hentry]
    obtain hread | ⟨k, hread⟩ := Option.eq_none_or_eq_some (s.entry b).readCell?
    · simp only [hread]
    · have hcell : k.toNat ≠ c.toNat := fun h => hb c hram (BitVec.eq_of_toNat_eq h ▸ hread)
      simp only [hread, Memory.readCell_writeCell_other _ _ hcell]
  · rfl

theorem State.memRead1_of_not_sameCell {a : Word} {v : Byte} (h : s.memWrite1 a v = .done t) {b : Word}
    (hb : ¬ s.SameCell a b) : t.memRead1 b = s.memRead1 b :=
  State.memRead1_of_memWrite1_done h fun c hram hread => hb ⟨c, by rw [hram]; rfl, hread⟩

theorem State.memWrite1_done_cfg {a : Word} {v : Byte} (h : s.memWrite1 a v = .done t) :
    t.cfg = s.cfg := by
  rw [(State.memWrite1_done h).1]

/-- R150: a store that completes has written the source register to the address it resolves to, unless it
resolves to none. -/
theorem store_next {r : Reg} {mode : AddressingMode} {w : Word} (h : store r mode w s = .next t) :
    (∃ ea u, resolve mode w s = .done (.addr ea) ∧ s.memWrite1 ea (s.reg r) = .done u ∧
      t = u.advance (1 + mode.operandBytes)) ∨
    ((∀ ea, resolve mode w s ≠ .done (.addr ea)) ∧ t = s.advance (1 + mode.operandBytes)) := by
  unfold store at h
  split at h
  · cases h
  · next ea hres =>
    split at h <;> cases h
    next u hwrite => exact .inl ⟨ea, u, hres, hwrite, rfl⟩
  · next v hnaddr hres =>
    cases h
    exact .inr ⟨fun ea hea => hnaddr ea (by rw [hres] at hea; exact Attempt.done.inj hea), rfl⟩

/-- An instruction that completes leaves memory as it is or as one byte write leaves it. -/
theorem exec_next_mem (h : exec i s = .next t) :
    t.mem = s.mem ∨ ∃ a v u, s.memWrite1 a v = .done u ∧ t.mem = u.mem := by
  rw [exec_eq_action] at h
  split at h
  · next r _ =>
    obtain ⟨v, he⟩ | ⟨a, he⟩ := load_cases r i.mode i.operand s <;> rw [he] at h <;> cases h
    simp
  · obtain ⟨ea, u, -, hw, rfl⟩ | ⟨-, rfl⟩ := store_next h
    · exact .inr ⟨ea, _, u, hw, rfl⟩
    · exact .inl rfl
  · cases h
    simp
  · obtain ⟨-, he⟩ | ⟨-, he⟩ := execBrk_cases s <;> rw [he] at h <;> cases h <;> exact .inl rfl

/-- A property of memory and its configuration that a byte write keeps. -/
structure MemoryInvariant (P : State → Prop) : Prop where
  congr : ∀ {s t}, t.mem = s.mem → t.cfg = s.cfg → P s → P t
  write : ∀ {s t a v}, P s → s.memWrite1 a v = .done t → P t

section

variable {P : State → Prop} (hP : MemoryInvariant P)
include hP

theorem MemoryInvariant.exec_next (hs : P s) (h : exec i s = .next t) : P t := by
  have hcfg := exec_next_cfg h
  obtain hm | ⟨a, v, u, hw, hm⟩ := exec_next_mem h
  · exact hP.congr hm hcfg hs
  · exact hP.congr hm (hcfg.trans (State.memWrite1_done_cfg hw).symm) (hP.write hs hw)

theorem MemoryInvariant.deliver (hs : P s) (k : IrqKind) : P (s.deliver k) := by
  unfold State.deliver
  split
  · exact hP.congr (s := s) rfl rfl hs
  next s₁ h₁ =>
  have hs₁ := hP.write hs h₁
  split
  · exact hP.congr (s := s₁) rfl rfl hs₁
  next s₂ h₂ =>
  have hs₂ := hP.write hs₁ h₂
  split <;> exact hP.congr (s := s₂) rfl rfl hs₂

theorem MemoryInvariant.boundaryCheck (hs : P s) : P s.boundaryCheck := by
  obtain ⟨-, h⟩ | ⟨k, -, h⟩ := s.boundaryCheck_cases <;> rw [h]
  · exact hs
  · exact hP.deliver hs k

/-- Such a property is kept by every step, whether it goes on or faults. -/
theorem MemoryInvariant.step (hs : P s) :
    (∀ t, step s = .next t → P t) ∧ (∀ f, step s = .fault f → P f.after) :=
  step_keeps hP.exec_next (fun _ => hP.congr rfl rfl) hs (hP.boundaryCheck hs)

end

theorem memoryInvariant_inv : MemoryInvariant State.Inv where
  congr hm _ hs := by rw [State.Inv, hm]; exact hs
  write hs hw := (State.memWrite1_done hw).2 hs

theorem State.Inv.hostLoad (hs : s.Inv) (a : Word) (v : Byte) : (s.hostLoad a v).Inv := by
  unfold State.hostLoad
  split
  · exact Memory.wf_writeCell_word hs _ v
  · exact hs

/-- R40: the debug port does not reach memory. -/
theorem State.dbgWrite_mem {j : Nat} {v : Word} (h : s.dbgWrite j v = .next t) : t.mem = s.mem := by
  unfold State.dbgWrite at h
  split at h
  · cases h
    rfl
  split at h
  · cases h
  next u hu =>
  split at h <;> cases h
  unfold State.dbgWriteByte at hu
  split at hu <;> cases hu <;> rfl

theorem State.dbgWrite_ne_fault {j : Nat} {v : Word} (f : Fault) : s.dbgWrite j v ≠ .fault f := by
  unfold State.dbgWrite
  split
  · nofun
  split
  · nofun
  split <;> nofun

end Machine

/-- Settles O22: the core writes memory byte by byte, the host one byte, a signal and the debug port none. -/
theorem agentStepsKeepMemoryCanonical : Obligations.AgentStepsKeepMemoryCanonical := by
  intro e s hs
  cases e with
  | blockStep => exact memoryInvariant_inv.step hs
  | signal k => exact ⟨fun t h => by cases h; exact hs, fun f h => by cases h⟩
  | debugWrite j v =>
    exact ⟨fun t h => by rw [State.Inv, State.dbgWrite_mem h]; exact hs,
      fun f h => absurd h (State.dbgWrite_ne_fault f)⟩
  | hostLoad a v => exact ⟨fun t h => by cases h; exact hs.hostLoad a v, fun f h => by cases h⟩

theorem Mnemonic.exists_action_eq_store {m : Mnemonic} (hm : m ∈ [Mnemonic.STA, .STX, .STY]) :
    ∃ r, m.action = .store r := by
  simp only [List.mem_cons, List.not_mem_nil, or_false] at hm
  obtain rfl | rfl | rfl := hm <;> exact ⟨_, rfl⟩

/-- Settles O39: a store writes the address it resolves to. -/
theorem storesLeaveOtherBytesAlone : Obligations.StoresLeaveOtherBytesAlone := by
  intro i s t ea hi hres h b hb
  obtain ⟨r, hr⟩ := Mnemonic.exists_action_eq_store hi
  rw [exec_of_store hr] at h
  obtain ⟨ea', u, hres', hw, rfl⟩ | ⟨hnone, -⟩ := store_next h
  · rw [hres] at hres'
    cases hres'
    exact State.memRead1_of_not_sameCell hw hb
  · exact absurd hres (hnone ea)

end Sys2Proof

/-! ### Blocks (spec/45_block_execution.md R191 to R199) and the program counter (spec/10_state.md R23) -/

namespace Sys2Proof

open Machine Claims

namespace Machine

variable {s b t u : State} {a p : Word} {d : Descriptor} {ds es : List Descriptor} {n : Nat}

theorem State.le_of_decodeAt_done (h : s.decodeAt a = .done d) : a ≤ 0xFFF9 := by
  obtain ⟨-, form, -, -, hrange, -⟩ := State.decodeAt_eq_done_iff.1 h
  exact BitVec.le_def.2 (Nat.le_of_add_right_le hrange)

/-- R194: an instruction that decodes ends by 0xFFF9, so the next address is 0xFFFA at most and does not
wrap. -/
theorem State.next_addr_toNat (h : s.decodeAt a = .done d) :
    (a + BitVec.ofNat 16 d.len).toNat = a.toNat + d.len ∧ a.toNat + d.len ≤ 0xFFFA := by
  obtain ⟨-, -, hend⟩ := State.decodeAt_eq_done_iff_bytesAt.1 h
  have hend : a.toNat + d.len ≤ 0xFFFA := hend
  refine ⟨?_, hend⟩
  rw [BitVec.toNat_add, BitVec.toNat_ofNat]
  omega

/-! One turn of the builder's loop (R192 to R195). -/

theorem State.buildFrom_of_out_of_range (ha : 0xFFF9 < a) :
    s.buildFrom (n + 1) a = .raised (.fetchOutOfRange a) := by
  simp only [State.buildFrom]
  exact if_pos ha

theorem State.buildFrom_of_decodeAt_raised {e : FaultCause} (ha : a ≤ 0xFFF9)
    (h : s.decodeAt a = .raised e) : s.buildFrom (n + 1) a = .raised e := by
  simp only [State.buildFrom, h]
  exact if_neg (BitVec.not_lt.2 ha)

theorem State.buildFrom_of_brk (h : s.decodeAt a = .done d) (hd : d.instr = .brk) :
    s.buildFrom (n + 1) a = .done ([d], .exit) := by
  simp only [State.buildFrom, h, (Instr.isBreak_iff _).2 hd, if_true]
  exact if_neg (BitVec.not_lt.2 (State.le_of_decodeAt_done h))

/-- What the builder answers when it has appended `ds` before. -/
def afterDescriptors (ds : List Descriptor) :
    Attempt FaultCause (List Descriptor × Terminal) → Attempt FaultCause (List Descriptor × Terminal)
  | .raised e => .raised e
  | .done (es, term) => .done (ds ++ es, term)

theorem State.buildFrom_of_ne_brk (h : s.decodeAt a = .done d) (hd : d.instr ≠ .brk) :
    s.buildFrom (n + 1) a = afterDescriptors [d] (s.buildFrom n (a + BitVec.ofNat 16 d.len)) := by
  have hnot : ¬ lastFetchAddr < a := BitVec.not_lt.2 (State.le_of_decodeAt_done h)
  simp only [State.buildFrom, h, if_neg hnot, if_neg (mt (Instr.isBreak_iff _).1 hd)]
  cases s.buildFrom n (a + BitVec.ofNat 16 d.len) <;> rfl

end Machine

section

variable {s b t u : State} {a p : Word} {d : Descriptor} {ds es : List Descriptor}

/-- R192: the loop, after instructions that decode and are not BREAK. -/
theorem Claims.DecodesTo.buildFrom_add (h : DecodesTo s a ds p) (n : Nat) :
    s.buildFrom (ds.length + n) a = afterDescriptors ds (s.buildFrom n p) := by
  induction h with
  | nil a => rw [List.length_nil, Nat.zero_add]; cases s.buildFrom n a <;> rfl
  | @cons a p d ds _ hdec hd _ ih =>
    rw [List.length_cons, Nat.add_right_comm, State.buildFrom_of_ne_brk hdec hd, ih]
    cases s.buildFrom n p <;> rfl

theorem Claims.DecodesTo.start_le (h : DecodesTo s a ds p) : a ≤ 0xFFF9 ∨ (ds = [] ∧ p = a) := by
  cases h with
  | nil => exact .inr ⟨rfl, rfl⟩
  | cons ha => exact .inl ha

theorem Claims.DecodesTo.decodeAt_of_mem (h : DecodesTo s a ds p) (hd : d ∈ ds) :
    s.decodeAt d.addr = .done d ∧ d.instr ≠ .brk := by
  induction h with
  | nil => cases hd
  | cons _ hdec hne _ ih =>
    obtain rfl | hd := List.mem_cons.1 hd
    · exact ⟨State.decodeAt_addr hdec ▸ hdec, hne⟩
    · exact ih hd

/-- R194: such instructions stay in the fetch range and never wrap. -/
theorem Claims.DecodesTo.addr_le (h : DecodesTo s a ds p) (ha : a ≤ 0xFFFA) :
    a.toNat + ds.length ≤ p.toNat ∧ p ≤ 0xFFFA := by
  induction h with
  | nil => exact ⟨Nat.le_refl _, ha⟩
  | @cons a p d ds _ hdec _ _ ih =>
    obtain ⟨hnext, hend⟩ := State.next_addr_toNat hdec
    obtain ⟨hlen, hp⟩ := ih (BitVec.le_def.2 (hnext ▸ hend))
    have hpos : 1 ≤ d.len := Instr.len_pos _
    rw [hnext] at hlen
    exact ⟨by rw [List.length_cons]; omega, hp⟩

theorem Descriptor.wellFormed_of_decodeAt (h : s.decodeAt a = .done d) : d.wellFormed = true :=
  decide_eq_true (State.decodeAt_addr h ▸ (State.next_addr_toNat h).2)

/-- R197. -/
theorem Claims.DecodesTo.contiguousFrom_append (h : DecodesTo s a ds p) (es : List Descriptor) :
    contiguousFrom a (ds ++ es) = contiguousFrom p es := by
  induction h with
  | nil => rfl
  | @cons a p d ds _ hdec hne _ ih =>
    have hbreak : d.instr.isBreak = false := Bool.eq_false_iff.2 (mt (Instr.isBreak_iff _).1 hne)
    simp [contiguousFrom, State.decodeAt_addr hdec, Descriptor.wellFormed_of_decodeAt hdec, hbreak, ih]

end

namespace Machine

variable {s b t u : State} {a p : Word} {d : Descriptor} {ds es : List Descriptor} {n : Nat}

/-- Everything the builder can answer (R192 to R198): instructions that decode and are not BREAK, and then
the cap, the end of the fetch range, a decode error or BREAK. -/
theorem State.buildFrom_cases (s : State) (n : Nat) (a : Word) :
    ∃ ds p, DecodesTo s a ds p ∧
      ((ds.length = n ∧ s.buildFrom n a = .done (ds, .tooManyInstructions)) ∨
       (0xFFF9 < p ∧ s.buildFrom n a = .raised (.fetchOutOfRange p)) ∨
       (∃ e, s.decodeAt p = .raised e ∧ s.buildFrom n a = .raised e) ∨
       (∃ d, s.decodeAt p = .done d ∧ d.instr = .brk ∧ ds.length < n ∧
        s.buildFrom n a = .done (ds ++ [d], .exit))) := by
  induction n generalizing a with
  | zero => exact ⟨[], a, .nil a, .inl ⟨rfl, rfl⟩⟩
  | succ n ih =>
    by_cases ha : 0xFFF9 < a
    · exact ⟨[], a, .nil a, .inr (.inl ⟨ha, State.buildFrom_of_out_of_range ha⟩)⟩
    have ha : a ≤ 0xFFF9 := BitVec.not_lt.1 ha
    cases hdec : s.decodeAt a with
    | raised e =>
      exact ⟨[], a, .nil a, .inr (.inr (.inl ⟨e, hdec, State.buildFrom_of_decodeAt_raised ha hdec⟩))⟩
    | done d =>
      by_cases hd : d.instr = .brk
      · exact ⟨[], a, .nil a, .inr (.inr (.inr
          ⟨d, hdec, hd, Nat.succ_pos n, State.buildFrom_of_brk hdec hd⟩))⟩
      rw [State.buildFrom_of_ne_brk hdec hd]
      obtain ⟨ds, p, hds, h⟩ := ih (a + BitVec.ofNat 16 d.len)
      refine ⟨d :: ds, p, .cons ha hdec hd hds, ?_⟩
      obtain ⟨hlen, h⟩ | ⟨hp, h⟩ | ⟨e, he, h⟩ | ⟨d', hd', hbrk, hlen, h⟩ := h <;> rw [h]
      · exact .inl ⟨congrArg Nat.succ hlen, rfl⟩
      · exact .inr (.inl ⟨hp, rfl⟩)
      · exact .inr (.inr (.inl ⟨e, he, rfl⟩))
      · exact .inr (.inr (.inr ⟨d', hd', hbrk, Nat.succ_lt_succ hlen, rfl⟩))

/-- `build_block` is the loop under the cap (R191). -/
theorem State.buildBlock_of_buildFrom_done {term : Terminal}
    (h : s.buildFrom s.cfg.maxInsns a = .done (ds, term)) : s.buildBlock a = .done ⟨a, ds, term⟩ := by
  simp only [State.buildBlock, h]

theorem State.buildBlock_raised_iff {e : FaultCause} :
    s.buildBlock a = .raised e ↔ s.buildFrom s.cfg.maxInsns a = .raised e := by
  unfold State.buildBlock
  cases s.buildFrom s.cfg.maxInsns a <;> simp

/-- The two ways a block is built (R195). -/
theorem State.buildBlock_done_cases {blk : Block} (h : s.buildBlock a = .done blk) :
    ∃ ds p, DecodesTo s a ds p ∧
      ((ds.length = s.cfg.maxInsns ∧ blk = ⟨a, ds, .tooManyInstructions⟩) ∨
       (∃ d, s.decodeAt p = .done d ∧ d.instr = .brk ∧ ds.length < s.cfg.maxInsns ∧
        blk = ⟨a, ds ++ [d], .exit⟩)) := by
  obtain ⟨ds, p, hds, ⟨hlen, hb⟩ | ⟨-, hb⟩ | ⟨e, -, hb⟩ | ⟨d, hd, hbrk, hlen, hb⟩⟩ :=
    s.buildFrom_cases s.cfg.maxInsns a
  · rw [State.buildBlock_of_buildFrom_done hb] at h
    cases h
    exact ⟨ds, p, hds, .inl ⟨hlen, rfl⟩⟩
  · rw [State.buildBlock_raised_iff.2 hb] at h
    cases h
  · rw [State.buildBlock_raised_iff.2 hb] at h
    cases h
  · rw [State.buildBlock_of_buildFrom_done hb] at h
    cases h
    exact ⟨ds, p, hds, .inr ⟨d, hd, hbrk, hlen, rfl⟩⟩

/-- The two ways a build fails (R193, R198). -/
theorem State.buildBlock_raised_cases {e : FaultCause} (h : s.buildBlock a = .raised e) :
    ∃ ds p, DecodesTo s a ds p ∧ ((0xFFF9 < p ∧ e = .fetchOutOfRange p) ∨ s.decodeAt p = .raised e) := by
  rw [State.buildBlock_raised_iff] at h
  obtain ⟨ds, p, hds, ⟨-, hb⟩ | ⟨hp, hb⟩ | ⟨e', he, hb⟩ | ⟨d, -, -, -, hb⟩⟩ :=
    s.buildFrom_cases s.cfg.maxInsns a <;> rw [hb] at h <;> cases h
  · exact ⟨ds, p, hds, .inl ⟨hp, rfl⟩⟩
  · exact ⟨ds, p, hds, .inr he⟩

/-! The run of a block of instructions other than BREAK, and what `pc` is after it. -/

theorem runDescriptors_append_next (hs : s.status = .running) (hne : ∀ d ∈ ds, d.instr ≠ .brk)
    (h : runDescriptors (ds ++ es) s = .next t) : ∃ u, RunsTo s ds u ∧ runDescriptors es u = .next t := by
  induction ds generalizing s with
  | nil => exact ⟨s, .nil s, h⟩
  | cons d ds ih =>
    obtain ⟨hd, hds⟩ := List.forall_mem_cons.1 hne
    simp only [List.cons_append, runDescriptors] at h
    split at h
    · next v he =>
      obtain ⟨-, hst, -⟩ | ⟨hbrk, -⟩ := exec_next_cases he
      · have hv : v.status = .running := hst.trans hs
        rw [if_pos hv] at h
        obtain ⟨u, hrun, hu⟩ := ih hv hds h
        exact ⟨u, .cons he hv hrun, hu⟩
      · exact absurd hbrk hd
    · cases h
    · cases h

theorem pc_of_runsTo_of_decodesTo (hrun : RunsTo s ds u) (hds : DecodesTo b s.pc ds p) : u.pc = p := by
  induction hrun with
  | nil =>
    cases hds
    rfl
  | cons he hv _ ih =>
    cases hds with
    | cons _ _ _ hds =>
      refine ih ?_
      rw [(exec_next_running he hv).2]
      exact hds

theorem State.boundaryCheck_cfg (s : State) : s.boundaryCheck.cfg = s.cfg := by
  obtain ⟨-, -, -, -, -, hcfg, -⟩ := s.boundaryCheck_frame
  exact hcfg

/-- A step that goes on (R190, R202, R204): instructions other than BREAK run, at least one of them, or
BREAK ends the run. -/
theorem step_next_cases (h : step s = .next t) :
    ∃ ds u, DecodesTo s.boundaryCheck s.boundaryCheck.pc ds u.pc ∧ RunsTo s.boundaryCheck ds u ∧
      ((1 ≤ ds.length ∧ t = u) ∨ (u.pc ≤ 0xFFF9 ∧ exec .brk u = .next t)) := by
  obtain ⟨hs, hcap, blk, hblk, hrun⟩ := step_next h
  have hb : s.boundaryCheck.status = .running := s.boundaryCheck_frame.1.trans hs
  have hcfg := s.boundaryCheck_cfg
  obtain ⟨ds, p, hds, ⟨hlen, rfl⟩ | ⟨d, hd, hbrk, -, rfl⟩⟩ := State.buildBlock_done_cases hblk
  · obtain ⟨u, hu, hend⟩ := runDescriptors_append_next (es := []) hb
      (fun d hd => (hds.decodeAt_of_mem hd).2) (by rwa [List.append_nil])
    obtain rfl := pc_of_runsTo_of_decodesTo hu hds
    cases hend
    exact ⟨ds, t, hds, hu, .inl ⟨by rw [hlen, hcfg]; exact hcap, rfl⟩⟩
  · obtain ⟨u, hu, hend⟩ := runDescriptors_append_next hb (fun d hd => (hds.decodeAt_of_mem hd).2) hrun
    obtain rfl := pc_of_runsTo_of_decodesTo hu hds
    have hexec : ∃ v, exec d.instr u = .next v := by
      rw [hbrk]
      obtain ⟨-, he⟩ | ⟨-, he⟩ := execBrk_cases u <;> exact ⟨_, he⟩
    obtain ⟨v, he⟩ := hexec
    rw [runDescriptors_singleton_of_next he] at hend
    cases hend
    exact ⟨ds, u, hds, hu, .inr ⟨State.le_of_decodeAt_done hd, hbrk ▸ he⟩⟩

/-- R202: a block of one instruction is that instruction. -/
theorem runDescriptors_singleton (d : Descriptor) (s : State) :
    runDescriptors [d] s = exec d.instr s := by
  cases he : exec d.instr s with
  | next t => exact runDescriptors_singleton_of_next he
  | fault f => exact runDescriptors_cons_of_fault he
  | refused r => exact absurd he (exec_ne_refused r)

/-- R195: under `MAX_INSNS = 1` a step is the one instruction that decodes at `pc`. -/
theorem step_of_cap_one (hs : s.status = .running) (hcap : s.cfg.maxInsns = 1)
    (h : s.boundaryCheck.decodeAt s.boundaryCheck.pc = .done d) :
    step s = exec d.instr s.boundaryCheck := by
  have hcfg : s.boundaryCheck.cfg.maxInsns = 1 := by rw [s.boundaryCheck_cfg, hcap]
  have hbuild : ∃ term, s.boundaryCheck.buildFrom 1 s.boundaryCheck.pc = .done ([d], term) := by
    by_cases hd : d.instr = .brk
    · exact ⟨_, State.buildFrom_of_brk h hd⟩
    · exact ⟨_, State.buildFrom_of_ne_brk h hd⟩
  obtain ⟨term, hbuild⟩ := hbuild
  rw [← hcfg] at hbuild
  rw [step_of_buildBlock hs (Nat.le_of_eq hcap.symm) (State.buildBlock_of_buildFrom_done hbuild),
    runDescriptors_singleton]

/-- R194: `FetchOutOfRange` of a decode names the instruction's address, which is one of the last two, since
an instruction has at most two operand bytes. -/
theorem State.decodeAt_fetchOutOfRange (h : s.decodeAt a = .raised (.fetchOutOfRange p)) :
    p = a ∧ 0xFFF7 < a := by
  unfold State.decodeAt at h
  split at h
  · cases h
  split at h
  · cases h
  next form _ =>
  split at h
  · next hrange =>
    cases h
    have hlast : lastFetchAddr.toNat = 0xFFF9 := rfl
    have hbytes : form.operandBytes ≤ 2 := by cases form <;> simp [Form.operandBytes]
    exact ⟨rfl, BitVec.lt_def.2 (show 0xFFF7 < a.toNat by omega)⟩
  · obtain ⟨q, hq⟩ := State.readOperand_raised h
    cases hq

theorem core_run_succ_of_next (h : step s = .next t) (n : Nat) :
    Host.Core.run Sys2Proof.core (n + 1) s = Host.Core.run Sys2Proof.core n t := by
  have hcore : Host.Core.step Sys2Proof.core s = .next t := h
  simp only [Host.Core.run, hcore]

end Machine

/-- Settles O8: a block is instructions other than BREAK up to the cap, or up to BREAK. -/
theorem builtBlocksAreWellFormed : Obligations.BuiltBlocksAreWellFormed := by
  intro s a b hcap h
  obtain ⟨ds, p, hds, ⟨hlen, rfl⟩ | ⟨d, hd, hbrk, hlen, rfl⟩⟩ := State.buildBlock_done_cases h
  · refine ⟨rfl, ?_, fun d hd => (hds.decodeAt_of_mem hd).1, fun _ => hlen⟩
    have hcontiguous : contiguousFrom a ds = true := by
      simpa [contiguousFrom] using hds.contiguousFrom_append []
    have hend : endsInBreak ds = false := by
      unfold endsInBreak
      split
      · next d hlast =>
        exact Bool.eq_false_iff.2 (mt (Instr.isBreak_iff _).1
          (hds.decodeAt_of_mem (List.mem_of_getLast? hlast)).2)
      · rfl
    simp [Block.wellFormed, hcontiguous, hend, hlen, hcap]
  · have hbreak : d.instr.isBreak = true := (Instr.isBreak_iff _).2 hbrk
    refine ⟨rfl, ?_, fun e he => ?_, fun hne => absurd hbrk (hne d (by simp))⟩
    · have hcontiguous : contiguousFrom a (ds ++ [d]) = true := by
        simp [hds.contiguousFrom_append, contiguousFrom, State.decodeAt_addr hd,
          Descriptor.wellFormed_of_decodeAt hd]
      simp [Block.wellFormed, hcontiguous, endsInBreak, hbreak, Nat.succ_le_of_lt hlen]
    · obtain he | he := List.mem_append.1 he
      · exact (hds.decodeAt_of_mem he).1
      · obtain rfl := List.mem_singleton.1 he
        exact State.decodeAt_addr hd ▸ hd

/-- Settles O50: the loop goes on after the instructions before BREAK, and stops at the cap. -/
theorem blocksStopAtBreakOrCap : Obligations.BlocksStopAtBreakOrCap := by
  intro s a p ds hds
  refine ⟨fun d hlen _ hd hbrk => ?_, fun _ hlen => ?_⟩
  · obtain ⟨n, hn⟩ := Nat.exists_eq_add_of_lt hlen
    apply State.buildBlock_of_buildFrom_done
    rw [hn, Nat.add_assoc, hds.buildFrom_add, State.buildFrom_of_brk hd hbrk]
    rfl
  · apply State.buildBlock_of_buildFrom_done
    rw [← hlen, ← Nat.add_zero ds.length, hds.buildFrom_add]
    simp [State.buildFrom, afterDescriptors]

/-- Settles O9: the loop goes on after the first instructions and fails at the next, so nothing runs. -/
theorem buildErrorExecutesNothing : Obligations.BuildErrorExecutesNothing := by
  rintro s b ds a e hs rfl hds hlen herr
  have hcfg := s.boundaryCheck_cfg
  obtain ⟨n, hn⟩ := Nat.exists_eq_add_of_lt hlen
  have hbuild : s.boundaryCheck.buildFrom (n + 1) a = .raised e := by
    obtain ⟨ha, rfl⟩ | ⟨ha, hdec⟩ := herr
    · exact State.buildFrom_of_out_of_range ha
    · exact State.buildFrom_of_decodeAt_raised ha hdec
  have hstep : step s = s.boundaryCheck.raise e := by
    refine step_of_buildBlock_raised hs (by omega) (State.buildBlock_raised_iff.2 ?_)
    rw [hcfg, hn, Nat.add_assoc, hds.buildFrom_add, hbuild]
    rfl
  refine ⟨fun a' op he => ?_, fun a' he => ?_, fun a' he => ?_⟩ <;> (subst he; exact hstep)

/-- Settles O10: the bytes are the encoding of the instruction, so it is what decodes at `pc`. -/
theorem stepRunsTheDecodedInstruction : Obligations.StepRunsTheDecodedInstruction := by
  rintro s b i bs hs hcap rfl hdec hbytes hrange
  obtain rfl : bs = encode i := by simpa using encodeAfterDecodeGivesTheBytes bs [] i hdec
  rw [(Laws.Encoding.all i).1] at hrange
  exact step_of_cap_one hs hcap
    (State.decodeAt_eq_done_iff_bytesAt (d := ⟨i, _⟩).2 ⟨rfl, hbytes, hrange⟩)

/-- Settles O16: each instruction of the block decoded in the fetch range and `pc` follows their addresses. -/
theorem stepKeepsPcInRange : Obligations.StepKeepsPcInRange := by
  intro s t h
  obtain ⟨ds, u, hds, hrun, ⟨hlen, rfl⟩ | ⟨hu, hbrk⟩⟩ := step_next_cases h
  · have hfirst : s.boundaryCheck.pc ≤ 0xFFF9 :=
      hds.start_le.resolve_right fun ⟨hnil, _⟩ => by simp [hnil] at hlen
    obtain ⟨hle, hend⟩ := hds.addr_le (BitVec.le_trans hfirst (by decide))
    have hstatus : t.status = .running :=
      hrun.status_running (s.boundaryCheck_frame.1.trans (step_next h).1)
    exact ⟨hfirst, BitVec.le_def.2 (Nat.le_of_add_right_le hle), hend, fun hne => absurd hstatus hne⟩
  · have hpc : t.pc = u.pc := by simpa using exec_next_pc hbrk
    have hfirst : s.boundaryCheck.pc ≤ 0xFFF9 := hds.start_le.elim id fun ⟨_, hp⟩ => hp ▸ hu
    obtain ⟨hle, hend⟩ := hds.addr_le (BitVec.le_trans hfirst (by decide))
    rw [hpc]
    exact ⟨hfirst, BitVec.le_def.2 (Nat.le_of_add_right_le hle), hend, fun _ => hu⟩

end Sys2Proof

/-! ### Runs without interrupts (spec/45_block_execution.md R207) -/

namespace Sys2Proof

open Machine Claims

namespace Machine

variable {s t : State}

theorem State.boundaryCheck_of_none_pending (h : s.pending = ⟨false, false, false⟩) :
    s.boundaryCheck = s :=
  State.boundaryCheck_of_none_due (by simp [State.dueInterrupt, h])

/-- Without interrupts a step that goes on and does not halt raises `pc`. -/
theorem pc_lt_of_step_running (hpending : s.pending = ⟨false, false, false⟩) (h : step s = .next t)
    (ht : t.status = .running) : s.pc.toNat < t.pc.toNat := by
  have hrange := (stepKeepsPcInRange s t h).1
  obtain ⟨ds, u, hds, -, hend⟩ := step_next_cases h
  rw [State.boundaryCheck_of_none_pending hpending] at hds hrange
  obtain ⟨hlen, rfl⟩ | ⟨-, hbrk⟩ := hend
  · have := (hds.addr_le (BitVec.le_trans hrange (by decide))).1
    omega
  · obtain ⟨hne, -⟩ := exec_next_running hbrk ht
    exact absurd rfl hne

/-- Without interrupts a step that starts in range can raise `FetchOutOfRange` at the last three addresses
only (R193, R194). -/
theorem fetchOutOfRange_of_step {a : Word} (hs : s.status = .running)
    (hpending : s.pending = ⟨false, false, false⟩) (hpc : s.pc ≤ 0xFFFA)
    (h : step s = .fault (.fetchOutOfRange a t)) : 0xFFF7 < a ∧ a ≤ 0xFFFA := by
  obtain ⟨e, hbuild, hf⟩ | ⟨i, u, -, he⟩ :=
    step_fault (P := fun _ => True) hs h (fun _ _ => trivial) trivial
  · obtain rfl : e = .fetchOutOfRange a := by cases e <;> cases hf; rfl
    rw [State.boundaryCheck_of_none_pending hpending] at hbuild
    obtain ⟨ds, p, hds, ⟨hp, he⟩ | hdec⟩ := State.buildBlock_raised_cases hbuild
    · cases he
      exact ⟨BitVec.lt_trans (by decide) hp, (hds.addr_le hpc).2⟩
    · obtain ⟨rfl, ha⟩ := State.decodeAt_fetchOutOfRange hdec
      exact ⟨ha, (hds.addr_le hpc).2⟩
  · obtain ⟨q, hq⟩ := exec_fault he
    cases hq

/-- Within `k` steps the run has halted, or its next step faults, at the end of the fetch range if at all for
lack of an instruction. -/
def State.EndsWithin (k : Nat) (s : State) : Prop :=
  ∃ (n : Nat) (u : State), n ≤ k ∧ Host.Core.run Sys2Proof.core n s = .next u ∧
    ((∃ r, u.status = .halted r) ∨
     (∃ f, step u = .fault f ∧ ∀ a t, f = .fetchOutOfRange a t → 0xFFF7 < a ∧ a ≤ 0xFFFA))

theorem State.EndsWithin.of_next {j k : Nat} (h : step s = .next t) (ht : t.EndsWithin j)
    (hk : j + 1 ≤ k) : s.EndsWithin k := by
  obtain ⟨n, u, hn, hrun, hend⟩ := ht
  exact ⟨n + 1, u, by omega, by rw [core_run_succ_of_next h, hrun], hend⟩

/-- Without interrupts `pc` rises with every step, so its distance to 0xFFFA bounds the run. -/
theorem endsWithin_distance (s : State) (hs : s.status = .running) (hcap : 1 ≤ s.cfg.maxInsns)
    (hpending : s.pending = ⟨false, false, false⟩) (hpc : s.pc ≤ 0xFFFA) :
    s.EndsWithin (0xFFFA - s.pc.toNat) := by
  obtain ⟨t, ht, hend⟩ | ⟨f, hf⟩ := blockStepEndsInOneOfThreeOutcomes s hs hcap
  · obtain ⟨hfirst, -, hlast, -⟩ := stepKeepsPcInRange s t ht
    rw [State.boundaryCheck_of_none_pending hpending] at hfirst
    have hfirst : s.pc.toNat ≤ 0xFFF9 := hfirst
    obtain hrunning | hhalted := hend
    · have hlt := pc_lt_of_step_running hpending ht hrunning
      have hlast' : t.pc.toNat ≤ 0xFFFA := hlast
      obtain ⟨-, -, hnext, -⟩ := noStepWritesSr s
      have htcap : 1 ≤ t.cfg.maxInsns := by rw [(hnext t ht).2]; exact hcap
      have htpending : t.pending = ⟨false, false, false⟩ :=
        step_next_keeps (P := fun u => u.pending = ⟨false, false, false⟩) ht
          (fun hu he => (exec_next_pending he).trans hu)
          (by rw [State.boundaryCheck_of_none_pending hpending, hpending])
      exact .of_next ht (endsWithin_distance t hrunning htcap htpending hlast) (by omega)
    · exact .of_next (j := 0) ht ⟨0, t, Nat.le_refl 0, rfl, .inl hhalted⟩ (by omega)
  · exact ⟨0, s, Nat.zero_le _, rfl, .inr ⟨f, hf, fun a t he =>
      fetchOutOfRange_of_step hs hpending hpc (he ▸ hf)⟩⟩
termination_by 0xFFFA - s.pc.toNat
decreasing_by omega

end Machine

/-- Settles O20: `pc` rises from step to step and stays at or below 0xFFFA = 65530. -/
theorem runsWithoutInterruptsEnd : Obligations.RunsWithoutInterruptsEnd := by
  intro s hs hcap hpending hpc
  obtain ⟨n, u, hn, hrun, hend⟩ := endsWithin_distance s hs hcap hpending hpc
  exact ⟨n, u, hn.trans (Nat.sub_le _ _), hrun, hend⟩

end Sys2Proof

/-! ### Fields that the core does not read (spec/00_scope.md R4, spec/10_state.md R29) -/

namespace Sys2Proof

open Machine Claims

namespace Machine

/-- `s` with `CPU_KIND`, `MAX_INSNS` and `sr` replaced as the three functions say: what no instruction reads
but BREAK, which reports `sr`. -/
def State.relabel (kind : CpuKind → CpuKind) (cap : Nat → Nat) (sr : Byte → Byte) (s : State) : State :=
  { s with
    sr := sr s.sr
    cfg := { s.cfg with cpuKind := kind s.cfg.cpuKind, maxInsns := cap s.cfg.maxInsns } }

/-- Two outcomes alike under `g`: next states related by `R`, the same fault leaving the state changed by `g`,
the same refusal. -/
def Alike (g : State → State) (R : State → State → Prop) :
    Host.Outcome State Fault Refusal → Host.Outcome State Fault Refusal → Prop
  | .next t, o => ∃ t', o = .next t' ∧ R t t'
  | .fault f, o => o = .fault (sameFault g f)
  | .refused r, o => o = .refused r

theorem sameFault_stop (g : State → State) (c : FaultCause) (s : State) :
    sameFault g (c.stop s) = c.stop (g s) := by
  cases c <;> rfl

section

variable {g : State → State} {R : State → State → Prop} {o o' : Host.Outcome State Fault Refusal}

theorem Alike.next {t : State} (h : Alike g R o o') (ho : o = .next t) :
    ∃ t', o' = .next t' ∧ R t t' := by
  subst ho
  exact h

theorem Alike.fault {f : Fault} (h : Alike g R o o') (ho : o = .fault f) :
    o' = .fault (sameFault g f) := by
  subst ho
  exact h

theorem Alike.refused {r : Refusal} (h : Alike g R o o') (ho : o = .refused r) : o' = .refused r := by
  subst ho
  exact h

end

section

variable {kind : CpuKind → CpuKind} {cap : Nat → Nat} {sr : Byte → Byte} {s t : State}

@[simp] theorem State.relabel_pc : (s.relabel kind cap sr).pc = s.pc := rfl
@[simp] theorem State.relabel_sp : (s.relabel kind cap sr).sp = s.sp := rfl
@[simp] theorem State.relabel_pending : (s.relabel kind cap sr).pending = s.pending := rfl
@[simp] theorem State.relabel_status : (s.relabel kind cap sr).status = s.status := rfl
@[simp] theorem State.relabel_reg (r : Reg) : (s.relabel kind cap sr).reg r = s.reg r := by
  cases r <;> rfl
@[simp] theorem State.relabel_entry (a : Word) : (s.relabel kind cap sr).entry a = s.entry a := rfl
@[simp] theorem State.relabel_memRead1 (a : Word) :
    (s.relabel kind cap sr).memRead1 a = s.memRead1 a := rfl
@[simp] theorem State.relabel_memRead2 (a : Word) :
    (s.relabel kind cap sr).memRead2 a = s.memRead2 a := rfl
@[simp] theorem State.relabel_pushAddr (sp : Byte) :
    (s.relabel kind cap sr).pushAddr sp = s.pushAddr sp := rfl
@[simp] theorem State.relabel_resolve (mode : AddressingMode) (w : Word) :
    resolve mode w (s.relabel kind cap sr) = resolve mode w s := by
  cases mode <;> rfl

@[simp] theorem State.relabel_setReg (r : Reg) (v : Byte) :
    (s.relabel kind cap sr).setReg r v = (s.setReg r v).relabel kind cap sr := by
  cases r <;> rfl

theorem State.relabel_memWrite1_done {a : Word} {v : Byte} (h : s.memWrite1 a v = .done t) :
    (s.relabel kind cap sr).memWrite1 a v = .done (t.relabel kind cap sr) := by
  simp only [State.memWrite1, State.relabel_entry] at h ⊢
  split at h <;> cases h <;> rfl

theorem State.relabel_memWrite1_raised {a e : Word} {v : Byte} (h : s.memWrite1 a v = .raised e) :
    (s.relabel kind cap sr).memWrite1 a v = .raised e := by
  simp only [State.memWrite1, State.relabel_entry] at h ⊢
  split at h <;> cases h <;> rfl

theorem State.relabel_deliver (k : IrqKind) :
    (s.relabel kind cap sr).deliver k = (s.deliver k).relabel kind cap sr := by
  simp only [State.deliver, State.relabel_pushAddr, State.relabel_sp, State.relabel_pc,
    State.relabel_pending]
  cases h₁ : s.memWrite1 (s.pushAddr s.sp) (hiByte s.pc) with
  | raised a => rw [State.relabel_memWrite1_raised h₁]; rfl
  | done s₁ =>
    rw [State.relabel_memWrite1_done h₁]
    dsimp only
    cases h₂ : s₁.memWrite1 (s.pushAddr (s.sp - 1)) (loByte s.pc) with
    | raised a => rw [State.relabel_memWrite1_raised h₂]; rfl
    | done s₂ =>
      rw [State.relabel_memWrite1_done h₂]
      dsimp only
      rw [State.relabel_memRead2]
      cases s₂.memRead2 (vector k) <;> rfl

/-- R230: the boundary check reads bit 2 of `sr`. -/
theorem State.relabel_boundaryCheck (hmask : (sr s.sr).getLsbD 2 = s.sr.getLsbD 2) :
    (s.relabel kind cap sr).boundaryCheck = s.boundaryCheck.relabel kind cap sr := by
  have hdue : (s.relabel kind cap sr).dueInterrupt = s.dueInterrupt := by
    have hflag : (s.relabel kind cap sr).flag .interruptDisable = s.flag .interruptDisable := hmask
    simp only [State.dueInterrupt, hflag, State.relabel_pending]
  obtain ⟨hnone, hb⟩ | ⟨k, hk, hb⟩ := s.boundaryCheck_cases <;> rw [hb]
  · exact State.boundaryCheck_of_none_due (hdue.trans hnone)
  · rw [State.boundaryCheck_of_due (hdue.trans hk), State.relabel_deliver]

variable {R : State → State → Prop}

theorem alike_raise (c : FaultCause) :
    Alike (State.relabel kind cap sr) R (s.raise c) ((s.relabel kind cap sr).raise c) := by
  cases c <;> rfl

theorem load_alike (r : Reg) (mode : AddressingMode) (w : Word)
    (hR : ∀ t : State, R t (t.relabel kind cap sr)) :
    Alike (State.relabel kind cap sr) R (load r mode w s) (load r mode w (s.relabel kind cap sr)) := by
  simp only [load, State.relabel_resolve, State.relabel_memRead1, State.relabel_setReg]
  split
  · exact alike_raise _
  · exact ⟨_, rfl, hR _⟩
  · split
    · exact alike_raise _
    · exact ⟨_, rfl, hR _⟩
  · exact ⟨_, rfl, hR _⟩

theorem store_alike (r : Reg) (mode : AddressingMode) (w : Word)
    (hR : ∀ t : State, R t (t.relabel kind cap sr)) :
    Alike (State.relabel kind cap sr) R (store r mode w s)
      (store r mode w (s.relabel kind cap sr)) := by
  simp only [store, State.relabel_resolve, State.relabel_reg]
  split
  · exact alike_raise _
  · next ea _ =>
    cases hw : s.memWrite1 ea (s.reg r) with
    | raised a => rw [State.relabel_memWrite1_raised hw]; exact alike_raise _
    | done u => rw [State.relabel_memWrite1_done hw]; exact ⟨_, rfl, hR _⟩
  · exact ⟨_, rfl, hR _⟩

/-- No instruction but BREAK reads the three fields; what BREAK does with them is for `hbrk` to say. -/
theorem exec_alike {i : Instr} (hR : ∀ t : State, R t (t.relabel kind cap sr))
    (hbrk : i = .brk →
      Alike (State.relabel kind cap sr) R (execBrk s) (execBrk (s.relabel kind cap sr))) :
    Alike (State.relabel kind cap sr) R (exec i s) (exec i (s.relabel kind cap sr)) := by
  rw [exec_eq_action, exec_eq_action]
  cases haction : i.mnemonic.action with
  | load r => exact load_alike r _ _ hR
  | store r => exact store_alike r _ _ hR
  | transfer src dest =>
    simp only [transfer, State.relabel_setReg, State.relabel_reg]
    exact ⟨_, rfl, hR _⟩
  | halt => exact hbrk (i.action_eq_halt_iff.1 haction)

/-- R204: nothing runs after BREAK. -/
theorem runDescriptors_cons_of_brk {d : Descriptor} (hd : d.instr = .brk) (ds : List Descriptor)
    (s : State) : runDescriptors (d :: ds) s = exec d.instr s := by
  cases he : exec d.instr s with
  | next t =>
    have hhalted : t.status ≠ .running := fun ht => (exec_next_running he ht).1 hd
    simp only [runDescriptors, he, if_neg hhalted]
  | fault f => exact runDescriptors_cons_of_fault he
  | refused r => exact absurd he (exec_ne_refused r)

section

variable (hR : ∀ t : State, R t (t.relabel kind cap sr))
  (hbrk : ∀ s : State,
    Alike (State.relabel kind cap sr) R (execBrk s) (execBrk (s.relabel kind cap sr)))
include hR hbrk

/-- A run goes on from states that differ in the three fields only, since it stops at BREAK. -/
theorem runDescriptors_alike (ds : List Descriptor) :
    Alike (State.relabel kind cap sr) R (runDescriptors ds s)
      (runDescriptors ds (s.relabel kind cap sr)) := by
  induction ds generalizing s with
  | nil => exact ⟨_, rfl, hR s⟩
  | cons d ds ih =>
    by_cases hd : d.instr = .brk
    · rw [runDescriptors_cons_of_brk hd, runDescriptors_cons_of_brk hd]
      exact exec_alike hR fun _ => hbrk s
    have halike : Alike (State.relabel kind cap sr) (fun t t' => t' = t.relabel kind cap sr)
        (exec d.instr s) (exec d.instr (s.relabel kind cap sr)) :=
      exec_alike (fun _ => rfl) fun h => absurd h hd
    cases he : exec d.instr s with
    | next u =>
      obtain ⟨u', he', rfl⟩ := halike.next he
      simp only [runDescriptors, he, he']
      by_cases hu : u.status = .running
      · rw [if_pos hu, if_pos (State.relabel_status.trans hu)]
        exact ih
      · rw [if_neg hu, if_neg (State.relabel_status.trans_ne hu)]
        exact ⟨_, rfl, hR u⟩
    | fault f =>
      rw [runDescriptors_cons_of_fault he]
      exact runDescriptors_cons_of_fault (halike.fault he)
    | refused r => exact absurd he (exec_ne_refused r)

/-- A step under the same cap, with bit 2 of `sr` kept. -/
theorem step_alike (hcap : cap = id) (hmask : (sr s.sr).getLsbD 2 = s.sr.getLsbD 2) :
    Alike (State.relabel kind cap sr) R (step s) (step (s.relabel kind cap sr)) := by
  subst hcap
  have hbuild : (s.boundaryCheck.relabel kind id sr).buildBlock
      (s.boundaryCheck.relabel kind id sr).pc = s.boundaryCheck.buildBlock s.boundaryCheck.pc :=
    State.buildBlock_congr (s := s.boundaryCheck.relabel kind id sr) (t := s.boundaryCheck) rfl rfl rfl _
  cases hs : s.status with
  | halted r =>
    rw [step_of_halted hs]
    exact step_of_halted hs
  | fault c =>
    rw [step_of_fault hs, Alike, sameFault_stop]
    exact step_of_fault hs
  | running =>
    rcases Nat.eq_zero_or_pos s.cfg.maxInsns with hzero | hpos
    · rw [show step s = .refused .zeroBlockCap by simp only [step, hs, blockStep, if_pos hzero]]
      have hzero' : (s.relabel kind id sr).cfg.maxInsns = 0 := hzero
      show step (s.relabel kind id sr) = .refused .zeroBlockCap
      simp only [step, State.relabel_status, hs, blockStep, if_pos hzero']
    · rw [step_of_running hs hpos, step_of_running (s := s.relabel kind id sr) hs hpos,
        State.relabel_boundaryCheck hmask, buildAndRun, buildAndRun, hbuild]
      cases s.boundaryCheck.buildBlock s.boundaryCheck.pc with
      | raised e => exact alike_raise e
      | done blk => exact runDescriptors_alike hR hbrk _

end

end

/-- The report of BREAK does not contain `CPU_KIND` or `MAX_INSNS`. -/
theorem execBrk_alike_of_sr_kept (kind : CpuKind → CpuKind) (cap : Nat → Nat) (s : State) :
    Alike (State.relabel kind cap id) (fun t t' => t' = t.relabel kind cap id) (execBrk s)
      (execBrk (s.relabel kind cap id)) := by
  obtain ⟨hb, h⟩ | ⟨hb, h⟩ := execBrk_cases s <;>
    (have hb' : (s.relabel kind cap id).cfg.onBreak = _ := hb
     rw [h, execBrk, hb']
     exact ⟨_, rfl, rfl⟩)

end Machine

/-- Settles O17: `CPU_KIND` is one of the fields that no instruction reads. -/
theorem cpuKindHasNoEffect : Obligations.CpuKindHasNoEffect := by
  intro s k
  have h : Alike (withCpuKind k) (fun t t' => t' = withCpuKind k t) (step s)
      (step (withCpuKind k s)) :=
    step_alike (kind := fun _ => k) (cap := id) (sr := id) (fun _ => rfl)
      (execBrk_alike_of_sr_kept _ _) rfl rfl
  refine ⟨fun t ht => ?_, fun f => h.fault, fun r => h.refused⟩
  obtain ⟨t', ht', rfl⟩ := h.next ht
  exact ht'

/-- Settles O18: the boundary check reads bit 2 of `sr`, BREAK puts `sr` into its report, and nothing else
reads it. -/
theorem onlyInterruptDisableIsRead : Obligations.OnlyInterruptDisableIsRead := by
  intro s v hv
  have hbrk (u : State) : Alike (withSr v) (fun t t' => ∃ o, t' = { withSr v t with outputs := o })
      (execBrk u) (execBrk (withSr v u)) := by
    obtain ⟨hb, h⟩ | ⟨hb, h⟩ := execBrk_cases u <;>
      (have hb' : (withSr v u).cfg.onBreak = _ := hb
       rw [h, execBrk, hb']
       exact ⟨_, rfl, _, rfl⟩)
  have h : Alike (withSr v) (fun t t' => ∃ o, t' = { withSr v t with outputs := o }) (step s)
      (step (withSr v s)) :=
    step_alike (kind := id) (cap := id) (sr := fun _ => v) (fun t => ⟨t.outputs, rfl⟩) hbrk rfl hv
  refine ⟨fun t ht => ?_, fun f => h.fault, fun r => h.refused⟩
  obtain ⟨_, ht', o, rfl⟩ := h.next ht
  exact ⟨o, ht'⟩

end Sys2Proof

/-! ### One instruction at a time (spec/45_block_execution.md R206) -/

namespace Sys2Proof

open Machine Claims

namespace Machine

variable {b t u v : State}

theorem exec_capped {i : Instr} (n : Nat) (h : exec i u = .next v) :
    exec i (capped n u) = .next (capped n v) := by
  have halike : Alike (capped n) (fun t t' => t' = capped n t) (exec i u) (exec i (capped n u)) :=
    exec_alike (kind := id) (cap := fun _ => n) (sr := id) (fun _ => rfl)
      fun _ => execBrk_alike_of_sr_kept _ _ _
  obtain ⟨_, h', rfl⟩ := halike.next h
  exact h'

/-- With nothing pending, an instruction of a block is a step under `MAX_INSNS = 1`. -/
theorem step_capped_one {d : Descriptor} (hu : u.status = .running)
    (hpending : u.pending = ⟨false, false, false⟩) (hdec : u.decodeAt u.pc = .done d)
    (h : exec d.instr u = .next v) : step (capped 1 u) = .next (capped 1 v) := by
  have hcheck : (capped 1 u).boundaryCheck = capped 1 u :=
    State.boundaryCheck_of_none_pending hpending
  have hdec' : (capped 1 u).boundaryCheck.decodeAt (capped 1 u).boundaryCheck.pc = .done d := by
    rw [hcheck]
    exact (State.decodeAt_congr rfl rfl u.pc).trans hdec
  rw [step_of_cap_one (s := capped 1 u) hu rfl hdec', hcheck]
  exact exec_capped 1 h

/-- R206, from any point of the run: what is left of the block was built at `pc` in the state `b` before the
run, and every instruction of it still decodes when its turn comes. -/
theorem core_run_of_runDescriptors {ds : List Descriptor} {term : Terminal} {n : Nat}
    (hu : u.status = .running) (hpending : u.pending = ⟨false, false, false⟩)
    (hbuild : b.buildFrom n u.pc = .done (ds, term))
    (hdec : ∀ ds₁ d ds₂ v, ds = ds₁ ++ d :: ds₂ → RunsTo u ds₁ v → v.decodeAt d.addr = .done d)
    (hrun : runDescriptors ds u = .next t) :
    Host.Core.run Sys2Proof.core ds.length (capped 1 u) = .next (capped 1 t) := by
  induction ds generalizing u n with
  | nil =>
    cases hrun
    rfl
  | cons d ds ih =>
    obtain ⟨haddr, hrest⟩ := State.buildFrom_cons hbuild
    have hfirst : u.decodeAt u.pc = .done d := haddr ▸ hdec [] d ds u rfl (.nil u)
    cases he : exec d.instr u with
    | fault f => rw [runDescriptors_cons_of_fault he] at hrun; cases hrun
    | refused r => exact absurd he (exec_ne_refused r)
    | next v =>
      rw [List.length_cons, core_run_succ_of_next (step_capped_one hu hpending hfirst he)]
      obtain ⟨hbrk, rfl⟩ | ⟨hne, m, hm⟩ := hrest
      · rw [runDescriptors_singleton_of_next he] at hrun
        cases hrun
        rfl
      · obtain ⟨-, hst, hpc⟩ | ⟨hbrk, -⟩ := exec_next_cases he
        · have hv : v.status = .running := hst.trans hu
          simp only [runDescriptors, he, if_pos hv] at hrun
          exact ih hv ((exec_next_pending he).trans hpending) (hpc ▸ hm)
            (fun ds₁ e ds₂ w hds hw => hdec (d :: ds₁) e ds₂ w (congrArg (d :: ·) hds) (.cons he hv hw))
            hrun
        · exact absurd hbrk hne

end Machine

/-- Settles O19: the run of the block is taken step by step from its first instruction. -/
theorem blockSizeDoesNotMatter : Obligations.BlockSizeDoesNotMatter := by
  intro s t blk hpending hblk hdec h
  obtain ⟨hs, -, blk', hblk', hrun⟩ := step_next h
  rw [State.boundaryCheck_of_none_pending hpending] at hblk' hrun
  rw [hblk] at hblk'
  cases hblk'
  exact core_run_of_runDescriptors hs hpending (State.buildFrom_of_buildBlock hblk) hdec hrun

end Sys2Proof

/-! ### A fully mapped platform (spec/20_memory.md R56, spec/60_exceptions.md R220) -/

namespace Sys2Proof

open Machine Claims

namespace Machine

variable {s : State} {a e : Word}

/-! An access that fails names an address that cannot be read, or cannot be written. -/

theorem State.not_readable_of_memRead1_raised (h : s.memRead1 a = .raised e) : ¬ s.Readable e := by
  obtain ⟨hentry, rfl⟩ := State.memRead1_raised_iff.1 h
  exact fun hreadable => hreadable hentry

theorem State.not_readable_of_memRead2_raised (h : s.memRead2 a = .raised e) : ¬ s.Readable e := by
  unfold State.memRead2 at h
  split at h
  · next hlo =>
    cases h
    exact State.not_readable_of_memRead1_raised hlo
  · split at h <;> cases h
    next hhi => exact State.not_readable_of_memRead1_raised hhi

theorem not_readable_of_resolve_raised {mode : AddressingMode} {w : Word}
    (h : resolve mode w s = .raised e) : ¬ s.Readable e := by
  cases mode with
  | indirectX | indirectY =>
    simp only [resolve] at h
    split at h <;> cases h
    next hptr => exact State.not_readable_of_memRead2_raised hptr
  | _ => cases h

theorem State.not_readable_of_readOperand_raised {form : Form}
    (h : s.readOperand a form = .raised (.memoryTransactionError e)) : ¬ s.Readable e := by
  cases form with
  | f1 i => cases h
  | f2 mk =>
    simp only [State.readOperand] at h
    split at h <;> cases h
    next hb => exact State.not_readable_of_memRead1_raised hb
  | f3 mk =>
    simp only [State.readOperand] at h
    split at h
    · next hlo =>
      cases h
      exact State.not_readable_of_memRead1_raised hlo
    · split at h <;> cases h
      next hhi => exact State.not_readable_of_memRead1_raised hhi

theorem State.not_readable_of_decodeAt_raised
    (h : s.decodeAt a = .raised (.memoryTransactionError e)) : ¬ s.Readable e := by
  unfold State.decodeAt at h
  split at h
  · next hop =>
    cases h
    exact State.not_readable_of_memRead1_raised hop
  split at h
  · cases h
  split at h
  · cases h
  · exact State.not_readable_of_readOperand_raised h

theorem State.not_readable_of_buildBlock_raised
    (h : s.buildBlock a = .raised (.memoryTransactionError e)) : ¬ s.Readable e := by
  obtain ⟨ds, p, -, ⟨-, he⟩ | hdec⟩ := State.buildBlock_raised_cases h
  · cases he
  · exact State.not_readable_of_decodeAt_raised hdec

theorem State.not_writable_of_memWrite1_raised {v : Byte} (h : s.memWrite1 a v = .raised e) :
    ¬ s.Writable e := by
  obtain ⟨c, -, hw⟩ | ⟨c, -, hw⟩ | ⟨hnot, hw⟩ := s.memWrite1_cases a v <;> rw [hw] at h <;> cases h
  exact hnot

theorem exists_not_writable_of_exec_fault {i : Instr} {f : Fault} (h : exec i s = .fault f) :
    ∃ e, ¬ s.Writable e := by
  have of_not_readable {e : Word} (he : ¬ s.Readable e) : ∃ e, ¬ s.Writable e := ⟨e, fun hw => he hw.1⟩
  rw [exec_eq_action] at h
  split at h
  · unfold load at h
    split at h
    · next hres => exact of_not_readable (not_readable_of_resolve_raised hres)
    · cases h
    · split at h
      · next hread => exact of_not_readable (State.not_readable_of_memRead1_raised hread)
      · cases h
    · cases h
  · unfold store at h
    split at h
    · next hres => exact of_not_readable (not_readable_of_resolve_raised hres)
    · split at h
      · next hwrite => exact ⟨_, State.not_writable_of_memWrite1_raised hwrite⟩
      · cases h
    · cases h
  · cases h
  · obtain ⟨-, he⟩ | ⟨-, he⟩ := execBrk_cases s <;> rw [he] at h <;> cases h

variable {t : State}

/-- The memory map is part of the configuration. -/
theorem State.entry_congr (hcfg : t.cfg = s.cfg) (a : Word) : t.entry a = s.entry a := by
  rw [State.entry, hcfg]
  rfl

theorem State.FullyMapped.congr (hcfg : t.cfg = s.cfg) (hs : s.FullyMapped) : t.FullyMapped :=
  fun a => by simpa only [State.Writable, State.entry_congr hcfg] using hs a

end Machine

/-- Settles O21: the map is fully mapped at every point of the step, so no access of the build or of an
instruction fails. -/
theorem fullyMappedNeverMemoryFaults : Obligations.FullyMappedNeverMemoryFaults := by
  intro s t a hmapped hs h
  obtain ⟨e, hbuild, hf⟩ | ⟨i, u, hu, he⟩ := step_fault (P := State.FullyMapped) hs h
    (fun hu he => hu.congr (exec_next_cfg he)) (hmapped.congr s.boundaryCheck_cfg)
  · obtain rfl : e = .memoryTransactionError a := by cases e <;> cases hf; rfl
    exact State.not_readable_of_buildBlock_raised hbuild (hmapped.congr s.boundaryCheck_cfg a).1
  · obtain ⟨p, hp⟩ := exists_not_writable_of_exec_fault he
    exact hp (hu p)

end Sys2Proof

/-! ### Memory as data (spec/10_state.md R39, spec/20_memory.md R50 to R54) -/

namespace Sys2Proof

open Machine Claims

namespace Machine

variable {m n : Memory} {j k : Nat} {v w : Byte}

@[simp] theorem Memory.readCell_cons_same : Memory.readCell ((k, v) :: m) k = v := if_pos rfl

theorem Memory.readCell_cons_other (h : j ≠ k) : Memory.readCell ((k, v) :: m) j = m.readCell j :=
  if_neg (Ne.symm h)

/-- The first listed cell of a canonical memory is the first that does not read as unlisted. -/
theorem Memory.readCell_of_lt_head (h : Memory.wf ((k, v) :: m) = true) (hj : j < k) :
    Memory.readCell ((k, v) :: m) j = unlistedByte := by
  obtain ⟨-, -, hall, -⟩ := Memory.wf_cons.1 h
  refine Memory.readCell_of_lt (List.forall_mem_cons.2 ⟨hj, fun e he => ?_⟩)
  exact hj.trans (hall e he)

/-- The canonical form is faithful (R39). -/
theorem Memory.eq_of_readCell (hm : m.wf = true) (hn : n.wf = true)
    (h : ∀ i, i < 65536 → m.readCell i = n.readCell i) : m = n := by
  induction m generalizing n with
  | nil =>
    cases n with
    | nil => rfl
    | cons e n =>
      obtain ⟨k, w⟩ := e
      obtain ⟨hk, hw, -, -⟩ := Memory.wf_cons.1 hn
      have hread := h k hk
      rw [Memory.readCell_cons_same] at hread
      exact absurd hread.symm hw
  | cons e m ih =>
    obtain ⟨j, v⟩ := e
    obtain ⟨hj, hv, hmall, hmwf⟩ := Memory.wf_cons.1 hm
    have hreadj := h j hj
    rw [Memory.readCell_cons_same] at hreadj
    cases n with
    | nil => exact absurd hreadj hv
    | cons e n =>
      obtain ⟨k, w⟩ := e
      obtain ⟨hk, hw, hnall, hnwf⟩ := Memory.wf_cons.1 hn
      have hreadk := h k hk
      rw [Memory.readCell_cons_same] at hreadk
      rcases Nat.lt_trichotomy j k with hlt | rfl | hlt
      · exact absurd (hreadj.trans (Memory.readCell_of_lt_head hn hlt)) hv
      · have hvw : v = w := hreadj.trans Memory.readCell_cons_same
        have hrest : m = n := by
          refine ih hmwf hnwf fun i hi => ?_
          by_cases hij : i = j
          · subst hij
            rw [Memory.readCell_of_lt hmall, Memory.readCell_of_lt hnall]
          · have hread := h i hi
            rwa [Memory.readCell_cons_other hij, Memory.readCell_cons_other hij] at hread
        rw [hvw, hrest]
      · exact absurd (hreadk.symm.trans (Memory.readCell_of_lt_head hm hlt)) hw

end Machine

/-- Settles O24: two canonical memories list the same first cell, and so on. -/
theorem canonicalMemoriesAreDeterminedByTheirBytes :
    Obligations.CanonicalMemoriesAreDeterminedByTheirBytes :=
  fun _ _ => Memory.eq_of_readCell

/-- Settles O25: the map entry decides each access, and a write to RAM is one write of a cell. -/
theorem byteReadsAndWrites : Obligations.ByteReadsAndWrites := by
  intro s a v hs
  refine ⟨fun c hentry => ?_, fun hentry => ?_, fun c hentry => ?_,
    fun c hentry => State.memWrite1_of_rom_ignore hentry v,
    fun c hentry => State.memWrite1_of_rom_reject_or_unmapped (.inl hentry) v⟩
  · refine State.memRead1_done_iff.2 ⟨c, ?_, rfl⟩
    obtain hentry | ⟨w, hentry⟩ := hentry <;> rw [hentry] <;> rfl
  · exact ⟨State.memRead1_raised_iff.2 ⟨hentry, rfl⟩,
      State.memWrite1_of_rom_reject_or_unmapped (c := a) (.inr hentry) v⟩
  · refine ⟨_, State.memWrite1_of_ram hentry v, rfl, fun b hb => ?_, fun b hb => ?_⟩
    · rw [State.memRead1_writeCell hs, if_pos hb]
    · rw [State.memRead1_writeCell hs, if_neg hb]

/-- Settles O26: `a` is the word of its own value. -/
theorem wordReadsAreLittleEndian : Obligations.WordReadsAreLittleEndian := by
  intro s a
  have ha : BitVec.ofNat 16 a.toNat = a := BitVec.ofNat_toNat 16 a
  refine ⟨fun w => ?_, fun e => ?_⟩
  · rw [← State.memRead2_eq_done_iff_pointerAt, ha]
  · rw [← State.memRead2_eq_raised_iff_pointerFails, ha]

/-- Settles O27: Immediate and Implied by definition, the other modes by the rules on integers. -/
theorem resolverFollowsTheRules : Obligations.ResolverFollowsTheRules := by
  intro s mode w hw
  have hw : mode.operandBytes = 1 → w.toNat < 256 := fun h => hw.resolve_left fun hne => hne h.symm
  refine ⟨?_, ?_, fun ea => resolve_eq_addr_iff_effectiveAddress hw,
    fun a => resolve_eq_raised_iff_pointerReadFails hw⟩
  · rintro rfl
    rfl
  · rintro rfl
    rfl

end Sys2Proof

/-! ### The frame of each mnemonic (spec/10_state.md R20, R25 to R27) -/

namespace Sys2Proof

open Machine Claims

namespace Machine

variable {s t : State} {i : Instr} {r : Reg}

/-- A load and a transfer write their destination and `pc`. -/
theorem exec_next_of_dest
    (haction : i.mnemonic.action = .load r ∨ ∃ src, i.mnemonic.action = .transfer src r)
    (h : exec i s = .next t) : t = { s.setReg r (t.reg r) with pc := t.pc } := by
  have hwritten : ∃ v n, t = (s.setReg r v).advance n := by
    obtain haction | ⟨src, haction⟩ := haction
    · rw [exec_of_load haction] at h
      obtain ⟨v, he⟩ | ⟨a, he⟩ := load_cases r i.mode i.operand s <;> rw [he] at h <;> cases h
      exact ⟨v, _, rfl⟩
    · rw [exec_of_transfer haction] at h
      cases h
      exact ⟨_, _, rfl⟩
  obtain ⟨v, n, rfl⟩ := hwritten
  cases r <;> rfl

/-- A store writes memory and `pc`. -/
theorem exec_next_of_store (haction : i.mnemonic.action = .store r) (h : exec i s = .next t) :
    t = { s with mem := t.mem, pc := t.pc } := by
  rw [exec_of_store haction] at h
  obtain ⟨m, -, he⟩ | ⟨a, he⟩ := store_cases r i.mode i.operand s <;> rw [he] at h <;> cases h
  rfl

/-- BREAK writes `status` and `outputs`. -/
theorem exec_next_of_halt (haction : i.mnemonic.action = .halt) (h : exec i s = .next t) :
    t = { s with status := t.status, outputs := t.outputs } := by
  rw [exec_of_halt haction] at h
  obtain ⟨-, he⟩ | ⟨-, he⟩ := execBrk_cases s <;> rw [he] at h <;> cases h <;> rfl

end Machine

/-- Settles O38: the action of a mnemonic names what it writes. -/
theorem eachMnemonicWritesItsOwnRegister : Obligations.EachMnemonicWritesItsOwnRegister := by
  intro i s t h
  refine ⟨fun hi => ?_, fun hi => ?_, fun hi => ?_, fun hi => ?_, fun hi => ?_⟩
  · refine exec_next_of_dest (r := .acc) ?_ h
    simp only [List.mem_cons, List.not_mem_nil, or_false] at hi
    obtain hi | hi | hi := hi <;> simp [hi, Mnemonic.action]
  · refine exec_next_of_dest (r := .x) ?_ h
    simp only [List.mem_cons, List.not_mem_nil, or_false] at hi
    obtain hi | hi := hi <;> simp [hi, Mnemonic.action]
  · refine exec_next_of_dest (r := .y) ?_ h
    simp only [List.mem_cons, List.not_mem_nil, or_false] at hi
    obtain hi | hi := hi <;> simp [hi, Mnemonic.action]
  · obtain ⟨r, hr⟩ := Mnemonic.exists_action_eq_store hi
    exact exec_next_of_store hr h
  · exact exec_next_of_halt (by rw [hi]; rfl) h

end Sys2Proof

/-! ### Deliveries (spec/60_exceptions.md R228 to R241, spec/70_reset_and_hazards.md R276) -/

namespace Sys2Proof

open Machine Claims

namespace Machine

variable {s t : State} {k : IrqKind} {a : Word} {v : Byte}

/-- R228 to R230: what is due is pending. -/
theorem State.pending_of_due (h : s.dueInterrupt = some k) : s.pending.get k = true := by
  unfold State.dueInterrupt at h
  split at h
  · next hreset => cases h; exact hreset
  split at h
  · next hnmi => cases h; exact hnmi
  split at h
  · next hirq => cases h; exact (Bool.and_eq_true_iff.1 hirq).1
  · cases h

/-- R240: the first push fails. -/
theorem State.deliver_of_first_raised (h : s.memWrite1 (firstPush s) (pushedHi s) = .raised a) :
    s.deliver k = s.abortDelivery k a := by
  rw [← s.pushAddr_sp_eq_firstPush, ← hiByte_pc_eq_pushedHi] at h
  simp only [State.deliver, h]

section

variable {s₁ s₂ : State} (hfirst : s.memWrite1 (firstPush s) (pushedHi s) = .done s₁)
include hfirst

/-- R240: the second push fails. -/
theorem State.deliver_of_second_raised (h : s₁.memWrite1 (secondPush s) (pushedLo s) = .raised a) :
    s.deliver k = s₁.abortDelivery k a := by
  rw [← s.pushAddr_sp_eq_firstPush, ← hiByte_pc_eq_pushedHi] at hfirst
  rw [← s.pushAddr_sp_sub_one_eq_secondPush, ← loByte_pc_eq_pushedLo] at h
  simp only [State.deliver, hfirst, h]

/-- R240: the vector read fails. -/
theorem State.deliver_of_vector_raised
    (hsecond : s₁.memWrite1 (secondPush s) (pushedLo s) = .done s₂)
    (h : PointerFails s₂ (vectorAddress k) a) : s.deliver k = s₂.abortDelivery k a := by
  rw [← State.memRead2_eq_raised_iff_pointerFails, ← vector_eq_ofNat_vectorAddress] at h
  rw [← s.pushAddr_sp_eq_firstPush, ← hiByte_pc_eq_pushedHi] at hfirst
  rw [← s.pushAddr_sp_sub_one_eq_secondPush, ← loByte_pc_eq_pushedLo] at hsecond
  simp only [State.deliver, hfirst, hsecond, h]

end

/-! An access whose address the map allows completes. -/

theorem State.exists_memWrite1_done (h : s.Writable a) (v : Byte) : ∃ t, s.memWrite1 a v = .done t := by
  cases hw : s.memWrite1 a v with
  | done t => exact ⟨t, rfl⟩
  | raised e =>
    obtain ⟨c, -, hw'⟩ | ⟨c, -, hw'⟩ | ⟨hnot, -⟩ := s.memWrite1_cases a v
    · rw [hw] at hw'; cases hw'
    · rw [hw] at hw'; cases hw'
    · exact absurd h hnot

theorem State.exists_memRead1_done (h : s.Readable a) : ∃ v, s.memRead1 a = .done v := by
  cases hr : s.memRead1 a with
  | done v => exact ⟨v, rfl⟩
  | raised e => exact absurd (State.memRead1_raised_iff.1 hr).1 h

/-- A pointer whose two bytes can be read has a value. -/
theorem exists_pointerAt {p : Nat} (hlo : s.Readable (BitVec.ofNat 16 p))
    (hhi : s.Readable (BitVec.ofNat 16 (p + 1))) : ∃ w, PointerAt s p w := by
  obtain ⟨lo, hlo⟩ := State.exists_memRead1_done hlo
  obtain ⟨hi, hhi⟩ := State.exists_memRead1_done hhi
  exact ⟨wordOfBytes hi lo, lo, hi, hlo, hhi, wordOfBytes_toNat hi lo⟩

/-- Under the launch premises (R276) every access of a delivery completes. -/
theorem State.DeliveryPremises.accesses_done (hs : s.DeliveryPremises) (k : IrqKind) :
    ∃ s₁ s₂ target, s.memWrite1 (firstPush s) (pushedHi s) = .done s₁ ∧
      s₁.memWrite1 (secondPush s) (pushedLo s) = .done s₂ ∧ PointerAt s₂ (vectorAddress k) target := by
  obtain ⟨hreadable, hwritable⟩ := hs
  obtain ⟨s₁, h₁⟩ := State.exists_memWrite1_done (s.pushAddr_sp_eq_firstPush ▸ hwritable s.sp) (pushedHi s)
  have hentry₁ := State.entry_congr (State.memWrite1_done_cfg h₁)
  have hwritable₁ : s₁.Writable (secondPush s) := by
    rw [← s.pushAddr_sp_sub_one_eq_secondPush]
    simpa only [State.Writable, hentry₁] using hwritable (s.sp - 1)
  obtain ⟨s₂, h₂⟩ := State.exists_memWrite1_done hwritable₁ (pushedLo s)
  have hreadable₂ (a : Word) (ha : 0xFFFA ≤ a) : s₂.Readable a := by
    rw [State.Readable, State.entry_congr (State.memWrite1_done_cfg h₂), hentry₁]
    exact hreadable a ha
  obtain ⟨target, hptr⟩ : ∃ target, PointerAt s₂ (vectorAddress k) target := by
    cases k <;> exact exists_pointerAt (hreadable₂ _ (by decide)) (hreadable₂ _ (by decide))
  exact ⟨s₁, s₂, target, h₁, h₂, hptr⟩

end Machine

/-- Settles O41: no instruction writes `sp` or `pending`, and the boundary check does so by the delivery that
is due. -/
theorem onlyDeliveryMovesSpAndPending : Obligations.OnlyDeliveryMovesSpAndPending := by
  intro s t h
  obtain ⟨hsp, hpending⟩ : t.sp = s.boundaryCheck.sp ∧ t.pending = s.boundaryCheck.pending := by
    refine step_next_keeps (P := fun u => u.sp = _ ∧ u.pending = _) h (fun hu he => ?_) ⟨rfl, rfl⟩
    obtain ⟨-, -, hsp, hpending⟩ := exec_next_frame he
    exact ⟨hsp.trans hu.1, hpending.trans hu.2⟩
  rw [hsp, hpending]
  obtain ⟨-, hb⟩ | ⟨k, hk, hb⟩ := s.boundaryCheck_cases
  · rw [hb]
    exact .inl ⟨rfl, rfl⟩
  obtain ⟨m, target, -, hd⟩ | ⟨m, a, -, hd⟩ := s.deliver_cases k
  · refine .inr ⟨k, hk, State.pending_of_due hk, ?_, ?_, fun j hj => ?_⟩ <;> rw [hb, hd]
    · simp only [sub_two_eq_ofNat_add_254, BitVec.toNat_ofNat]
    · rw [Pending.get_set, if_pos rfl]
    · rw [Pending.get_set, if_neg hj]
  · rw [hb, hd]
    exact .inl ⟨rfl, rfl⟩

/-- Settles O44: after the two writes of cells each address reads the byte last written to its cell. -/
theorem deliveredBytesReadBack : Obligations.DeliveredBytesReadBack := by
  intro s k c₁ c₂ target hs h₁ h₂ hne hvector hptr
  let s₁ : State := { s with mem := s.mem.writeCell c₁.toNat (pushedHi s) }
  let s₂ : State := { s₁ with mem := s₁.mem.writeCell c₂.toNat (pushedLo s) }
  have hs₁ : s₁.Inv := Memory.wf_writeCell_word hs c₁ _
  have hread (b : Word) : s₂.memRead1 b =
      if (s.entry b).readCell? = some c₂ then .done (pushedLo s)
      else if (s.entry b).readCell? = some c₁ then .done (pushedHi s) else s.memRead1 b := by
    rw [← State.memRead1_writeCell hs c₁ (pushedHi s) b]
    exact State.memRead1_writeCell hs₁ c₂ (pushedLo s) b
  have hother (b : Word) (hb₁ : (s.entry b).readCell? ≠ some c₁)
      (hb₂ : (s.entry b).readCell? ≠ some c₂) : s₂.memRead1 b = s.memRead1 b := by
    rw [hread, if_neg hb₂, if_neg hb₁]
  have hptr₂ : PointerAt s₂ (vectorAddress k) target := by
    obtain ⟨lo, hi, hlo, hhi, hvalue⟩ := hptr
    obtain ⟨hlo₁, hlo₂⟩ := hvector _ (.inl rfl)
    obtain ⟨hhi₁, hhi₂⟩ := hvector _ (.inr rfl)
    exact ⟨lo, hi, (hother _ hlo₁ hlo₂).trans hlo, (hother _ hhi₁ hhi₂).trans hhi, hvalue⟩
  have hdeliver := State.deliver_of_done (State.memWrite1_of_ram h₁ (pushedHi s))
    (State.memWrite1_of_ram (s := s₁) h₂ (pushedLo s)) hptr₂
  have hmem (b : Word) : (s.deliver k).memRead1 b = s₂.memRead1 b := by
    rw [hdeliver]
    rfl
  refine ⟨?_, ?_, by rw [hdeliver], fun b hb₁ hb₂ => (hmem b).trans (hother b hb₁ hb₂)⟩
  · have hcell : (s.entry (firstPush s)).readCell? = some c₁ := by rw [h₁]; rfl
    rw [hmem, hread, if_neg (by rw [hcell]; simpa using hne), if_pos hcell]
  · have hcell : (s.entry (secondPush s)).readCell? = some c₂ := by rw [h₂]; rfl
    rw [hmem, hread, if_pos hcell]

/-- Settles O45: an aborted delivery is the state after the completed pushes with the diagnostic. -/
theorem abortedDeliveryKeepsRegistersAndPending :
    Obligations.AbortedDeliveryKeepsRegistersAndPending := by
  intro s k a
  refine ⟨fun h => State.deliver_of_first_raised h, fun s₁ h₁ h => ?_, fun s₁ s₂ h₁ h₂ h => ?_⟩
  · rw [State.deliver_of_second_raised h₁ h, (State.memWrite1_done h₁).1]
    rfl
  · rw [State.deliver_of_vector_raised h₁ h₂ h, (State.memWrite1_done h₂).1,
      (State.memWrite1_done h₁).1]
    rfl

/-- Settles O46: the Reset delivery is due and every access of it completes. -/
theorem powerOnDeliversReset : Obligations.PowerOnDeliversReset := by
  intro s hreset hs
  obtain ⟨s₁, s₂, target, h₁, h₂, hptr⟩ := hs.accesses_done .reset
  have hs₂ : s₂ = { s with mem := s₂.mem } := calc
    s₂ = { s₁ with mem := s₂.mem } := (State.memWrite1_done h₂).1
    _ = { s with mem := s₂.mem } := by rw [(State.memWrite1_done h₁).1]
  refine ⟨s₂.mem, target, hs₂ ▸ hptr, ?_, fun a hfirst hsecond => ?_⟩
  · rw [State.boundaryCheck_of_due (State.dueInterrupt_of_reset hreset)]
    exact deliveryPushesAndVectors s s₁ s₂ .reset target h₁ h₂ hptr
  · have hentry₁ := State.entry_congr (State.memWrite1_done_cfg h₁)
    rw [← hs₂, State.memRead1_of_not_sameCell h₂ (by simpa only [State.SameCell, hentry₁] using hsecond),
      State.memRead1_of_not_sameCell h₁ hfirst]

/-- Settles O47: the Reset delivery clears its own bit, the block clears none, and Nmi is due next. -/
theorem resetThenNmiAreDelivered : Obligations.ResetThenNmiAreDelivered := by
  intro s t hpending hs h
  obtain ⟨m, target, -, hcheck, -⟩ := powerOnDeliversReset s (by rw [hpending]) hs
  have ht : t.pending = ⟨false, true, true⟩ := by
    refine step_next_keeps (P := fun u => u.pending = ⟨false, true, true⟩) h
      (fun hu he => (exec_next_pending he).trans hu) ?_
    rw [hcheck, hpending]
  exact ⟨ht, State.boundaryCheck_of_due (State.dueInterrupt_of_nmi (by rw [ht]) (by rw [ht]))⟩

end Sys2Proof

/-! ### BREAK, transfers in sequence and the reset state (spec/44_break.md, spec/43_transfers.md R175, R41) -/

namespace Sys2Proof

open Machine Claims

/-- R175: the second of two equal transfers copies the byte that is already there. -/
theorem Machine.exec_transfer_twice {i : Instr} {src dest : Reg} {s t u : State}
    (haction : i.mnemonic.action = .transfer src dest) (ht : exec i s = .next t)
    (hu : exec i t = .next u) : u = { t with pc := s.pc + 2 } := by
  rw [exec_of_transfer haction] at ht hu
  have hcopied : t.reg src = t.reg dest := by
    cases ht
    cases src <;> cases dest <;> rfl
  have hpc : t.pc + 1 = s.pc + 2 := by
    cases ht
    rw [State.advance_pc, State.setReg_pc, BitVec.add_assoc]
    rfl
  rw [hcopied, State.setReg_self] at hu
  cases hu
  rw [← hpc]
  rfl

/-- Settles O35: the first two laws are the transfers' own effects, one after the other. -/
theorem transferSequences : Obligations.TransferSequences := by
  intro s t u
  refine ⟨fun ht hu => ?_, fun ht hu => ?_, fun i hi ht hu => ?_⟩
  · rw [exec_of_transfer (src := .acc) (dest := .x) rfl] at ht
    rw [exec_of_transfer (src := .x) (dest := .acc) rfl] at hu
    cases ht
    cases hu
    exact ⟨rfl, rfl⟩
  · rw [exec_of_transfer (src := .x) (dest := .acc) rfl] at ht
    rw [exec_of_transfer (src := .acc) (dest := .y) rfl] at hu
    cases ht
    cases hu
    exact ⟨rfl, rfl⟩
  · have haction : ∃ src dest, i.mnemonic.action = .transfer src dest := by
      simp only [List.mem_cons, List.not_mem_nil, or_false] at hi
      obtain rfl | rfl | rfl | rfl := hi <;> exact ⟨_, _, rfl⟩
    obtain ⟨src, dest, haction⟩ := haction
    exact exec_transfer_twice haction ht hu

/-- Settles O36: BREAK halts, and a halted core has no step, whatever is signalled. -/
theorem breakHaltsForDebug : Obligations.BreakHaltsForDebug := by
  refine ⟨encode_of_no_operandByte rfl, fun s hs => ?_⟩
  obtain ⟨-, h⟩ | ⟨hs', -⟩ := execBrk_cases s
  · refine ⟨s.setStatus (.halted .debugHalt), h, rfl, fun k u => ⟨?_, ?_⟩⟩
    · rw [step_of_halted rfl]
      simp
    · rw [step_of_halted (s := State.signal _ k) rfl]
      simp
  · rw [hs] at hs'
    cases hs'

/-- Settles O37: the report is of the registers as BREAK finds them. -/
theorem breakShutsDownWithReport : Obligations.BreakShutsDownWithReport := by
  intro s hs
  obtain ⟨hs', -⟩ | ⟨-, h⟩ := execBrk_cases s
  · rw [hs] at hs'
    cases hs'
  · exact h

/-- Settles O23: the reset state is a literal whose memory lists nothing. -/
theorem resetState : Obligations.ResetState := ⟨rfl, rfl, rfl, rfl⟩

end Sys2Proof

/-! ### The debug port (spec/10_state.md R40) -/

namespace Sys2Proof

open Machine Claims

namespace Machine

variable {s t : State} {i : Nat} {v : Word} {b : Byte}

/-- The five indices of 8-bit registers. -/
theorem State.exists_dbgWriteByte (hi : i ≠ 0) (hle : i ≤ 5) : ∃ t, s.dbgWriteByte i b = some t := by
  interval_cases i
  · exact absurd rfl hi
  all_goals exact ⟨_, rfl⟩

/-- A byte written is read back zero-extended at its index, and no other index changes. -/
theorem State.dbgRead_dbgWriteByte (h : s.dbgWriteByte i b = some t) :
    t.dbgRead i = some (zext16 b) ∧ (∀ j, j ≠ i → t.dbgRead j = s.dbgRead j) ∧
      t = { s with pc := t.pc, sp := t.sp, sr := t.sr, x := t.x, y := t.y, acc := t.acc } := by
  unfold State.dbgWriteByte at h
  split at h <;> cases h
  all_goals
    refine ⟨rfl, fun j hj => ?_, rfl⟩
    unfold State.dbgRead
    split <;> trivial

theorem State.dbgWrite_of_dbgWriteByte (hi : i ≠ 0) (hv : v.toNat < 256)
    (h : s.dbgWriteByte i (loByte v) = some t) : s.dbgWrite i v = .next t := by
  have hhi : hiByte v = 0 := by
    apply BitVec.eq_of_toNat_eq
    rw [hiByte_toNat, Nat.div_eq_of_lt hv]
    rfl
  simp only [State.dbgWrite, if_neg hi, h, if_pos hhi]

theorem zext16_loByte_of_lt (hv : v.toNat < 256) : zext16 (loByte v) = v := by
  apply BitVec.eq_of_toNat_eq
  rw [zext16_toNat, loByte_toNat_of_lt hv]

theorem State.dbg_of_index_above (hi : 5 < i) :
    s.dbgWrite i v = .refused (.debugIndex i) ∧ s.dbgRead i = none := by
  obtain ⟨j, rfl⟩ := Nat.exists_eq_add_of_lt hi
  have hindex : 5 + j + 1 = j + 6 := by omega
  rw [hindex]
  exact ⟨rfl, rfl⟩

end Machine

/-- Settles O49: index 0 is `pc`, the others hold a byte. -/
theorem debugPortStoresRawValues : Obligations.DebugPortStoresRawValues := by
  intro s i v
  refine ⟨by simp [State.dbgRead], fun hle hv => ?_, State.dbg_of_index_above⟩
  by_cases hi : i = 0
  · subst hi
    refine ⟨{ s with pc := v }, rfl, rfl, fun j hj => ?_, rfl⟩
    unfold State.dbgRead
    split <;> trivial
  · have hv := hv.resolve_left hi
    obtain ⟨t, ht⟩ := State.exists_dbgWriteByte (s := s) (b := loByte v) hi hle
    have hread := State.dbgRead_dbgWriteByte ht
    rw [zext16_loByte_of_lt hv] at hread
    exact ⟨t, State.dbgWrite_of_dbgWriteByte hi hv ht, hread⟩

end Sys2Proof

/-! ### The mapper-0 platform (spec/20_memory.md R62) -/

namespace Sys2Proof

open Machine Claims

section

variable {low : LowRam} {onWrite : OnWrite} {a : Word}

theorem ramWindow_covers_iff : ramWindow.covers a = true ↔ 0x6000 ≤ a.toNat ∧ a.toNat ≤ 0x7FFF :=
  Region.covers_iff

theorem romWindow_covers_iff : (romWindow onWrite).covers a = true ↔ 0x8000 ≤ a.toNat := by
  have := a.isLt
  have hlast : (0xFFFF : Word).toNat = 65535 := rfl
  refine Region.covers_iff.trans ⟨And.left, fun h => ⟨h, ?_⟩⟩
  simp only [romWindow]
  omega

theorem MemMap.mapper0_entry_ramWindow (h : 0x6000 ≤ a.toNat) (h' : a.toNat ≤ 0x7FFF) :
    MemMap.entry (.mapper0 low onWrite) a = .ram a := by
  rw [mapper0, entry_cons_of_covers (ramWindow_covers_iff.2 ⟨h, h'⟩)]
  exact congrArg MapEntry.ram (Region.cellOf_self rfl rfl h)

theorem MemMap.mapper0_entry_romWindow (h : 0x8000 ≤ a.toNat) :
    MemMap.entry (.mapper0 low onWrite) a = .rom a onWrite := by
  rw [mapper0, entry_cons_of_not_covers (by rw [ramWindow_covers_iff]; omega),
    entry_cons_of_covers (romWindow_covers_iff.2 h)]
  exact congrArg (MapEntry.rom · onWrite) (Region.cellOf_self rfl rfl h)

/-- Below the two windows an address is in a copy of the low RAM, with the cell of the first copy, or
unmapped. -/
theorem MemMap.mapper0_entry_low_cases (hlow : low.wellFormed = true) (h : a.toNat < 0x6000) :
    (∃ k, k < low.copies ∧ low.first + k * low.stride ≤ a.toNat ∧
      a.toNat < low.first + k * low.stride + low.size ∧
      MemMap.entry (.mapper0 low onWrite) a =
        .ram (BitVec.ofNat 16 (low.first + (a.toNat - (low.first + k * low.stride))))) ∨
    ((∀ k, k < low.copies → ¬ (low.first + k * low.stride ≤ a.toNat ∧
      a.toNat < low.first + k * low.stride + low.size)) ∧
      MemMap.entry (.mapper0 low onWrite) a = .unmapped) := by
  rw [mapper0, entry_cons_of_not_covers (by rw [ramWindow_covers_iff]; omega),
    entry_cons_of_not_covers (by rw [romWindow_covers_iff]; omega)]
  obtain ⟨r, hr, hcovers, hentry⟩ | ⟨hnone, hentry⟩ :=
    entry_cases ((List.range low.copies).map low.copy) a
  · obtain ⟨k, hk, rfl⟩ := List.mem_map.1 hr
    have hk := List.mem_range.1 hk
    obtain ⟨hfirst, hlast⟩ := (LowRam.copy_covers_iff hlow hk).1 hcovers
    exact .inl ⟨k, hk, hfirst, hlast, hentry.trans (LowRam.copy_entry hlow hk a)⟩
  · refine .inr ⟨fun k hk hin => ?_, hentry⟩
    exact hnone _ (List.mem_map_of_mem (List.mem_range.2 hk))
      ((LowRam.copy_covers_iff hlow hk).2 hin)

/-- The copies of a well-formed low RAM do not overlap. -/
theorem LowRam.copy_index_unique (hlow : low.wellFormed = true) {j k p : Nat}
    (hj : low.first + j * low.stride ≤ p) (hj' : p < low.first + j * low.stride + low.size)
    (hk : low.first + k * low.stride ≤ p) (hk' : p < low.first + k * low.stride + low.size) :
    j = k := by
  obtain ⟨-, hstride, -, -⟩ := LowRam.wellFormed_iff.1 hlow
  have hle {m n : Nat} (h : m < n) : m * low.stride + low.stride ≤ n * low.stride := by
    rw [← Nat.succ_mul]
    exact Nat.mul_le_mul_right _ h
  rcases Nat.lt_trichotomy j k with h | h | h
  · have := hle h
    omega
  · exact h
  · have := hle h
    omega

/-- The RAM cells of the platform are named by addresses below 0x8000. -/
theorem MemMap.mapper0_ram_cell_lt (hlow : low.wellFormed = true) {c : Word}
    (h : MemMap.entry (.mapper0 low onWrite) a = .ram c) : c.toNat < 0x8000 := by
  rcases Nat.lt_or_ge a.toNat 0x6000 with ha | ha
  · obtain ⟨k, hk, hfirst, hlast, hentry⟩ | ⟨-, hentry⟩ :=
      MemMap.mapper0_entry_low_cases (onWrite := onWrite) hlow ha
    · rw [h] at hentry
      cases hentry
      rw [BitVec.toNat_ofNat]
      have := LowRam.copy_end_le hlow hk
      omega
    · rw [h] at hentry
      cases hentry
  · rcases Nat.lt_or_ge a.toNat 0x8000 with ha' | ha'
    · rw [MemMap.mapper0_entry_ramWindow ha (by omega)] at h
      cases h
      exact ha'
    · rw [MemMap.mapper0_entry_romWindow ha'] at h
      cases h

end

/-- Settles O51: the two windows, then the one copy that an address below them can lie in. -/
theorem mapper0MapFollowsTheSpec : Obligations.Mapper0MapFollowsTheSpec := by
  intro low w
  refine ⟨fun a => MemMap.mapper0_entry_ramWindow, fun a => MemMap.mapper0_entry_romWindow,
    fun hlow => ⟨fun k j hk hj => ?_, fun a ha hnone => ?_⟩⟩
  · have hend := LowRam.copy_end_le hlow hk
    have ha : (BitVec.ofNat 16 (low.first + k * low.stride + j)).toNat =
        low.first + k * low.stride + j := Nat.mod_eq_of_lt (by omega)
    obtain ⟨k', -, hfirst, hlast, hentry⟩ | ⟨hnone, -⟩ :=
      MemMap.mapper0_entry_low_cases (onWrite := w) hlow (by rw [ha]; omega)
    · rw [hentry]
      rw [ha] at hfirst hlast ⊢
      obtain rfl : k' = k :=
        LowRam.copy_index_unique hlow hfirst hlast (Nat.le_add_right _ _) (by omega)
      rw [Nat.add_sub_cancel_left]
    · refine absurd ⟨?_, ?_⟩ (hnone k hk) <;> rw [ha] <;> omega
  · obtain ⟨k, hk, hfirst, hlast, -⟩ | ⟨-, hentry⟩ := MemMap.mapper0_entry_low_cases hlow ha
    · exact absurd ⟨hfirst, hlast⟩ (hnone k hk)
    · exact hentry

namespace Machine

variable {low : LowRam} {onWrite : OnWrite}

/-- The ROM window reads as in `s`, on the same map. -/
def State.SameRom (s t : State) : Prop :=
  t.cfg.memMap = s.cfg.memMap ∧ ∀ a : Word, 0x8000 ≤ a → t.memRead1 a = s.memRead1 a

/-- R54: a write reaches RAM cells only, which are no cells of the ROM window. -/
theorem memoryInvariant_sameRom {s : State} (hlow : low.wellFormed = true)
    (hmap : s.cfg.memMap = .mapper0 low onWrite) : MemoryInvariant s.SameRom where
  congr {t u} hmem hcfg ht :=
    ⟨hcfg ▸ ht.1, fun a ha => (State.memRead1_congr hmem (by rw [hcfg]) a).trans (ht.2 a ha)⟩
  write {t u a v} ht hw := by
    obtain ⟨hmap', hread⟩ := ht
    have hmap' := hmap'.trans hmap
    refine ⟨by rw [State.memWrite1_done_cfg hw, hmap', hmap], fun b hb => ?_⟩
    rw [State.memRead1_of_memWrite1_done hw, hread b hb]
    intro c hram hcell
    rw [State.entry, hmap'] at hram
    have hlt : c.toNat < 0x8000 := MemMap.mapper0_ram_cell_lt hlow hram
    have hrom : t.entry b = .rom b onWrite := by
      rw [State.entry, hmap']
      exact MemMap.mapper0_entry_romWindow hb
    rw [hrom] at hcell
    cases hcell
    exact absurd hlt (Nat.not_lt.2 hb)

end Machine

/-- Settles O52: the ROM window is kept by every byte write and so by every step. -/
theorem mapper0RomNeverChanges : Obligations.Mapper0RomNeverChanges := by
  intro low w s hlow hmap
  obtain ⟨hnext, hfault⟩ := (memoryInvariant_sameRom hlow hmap).step (s := s) ⟨rfl, fun _ _ => rfl⟩
  exact ⟨fun t h => (hnext t h).2, fun f h => (hfault f h).2⟩

end Sys2Proof
